-- ==== Sys2Proof/Word.lean ====
section
/-! DEFINITION. The words of the block and the plain types of its ports: bytes, the 69-bit host word, line levels,
the environment's answers, the events of the wire trace, and the record of the working registers. -/

namespace Sys2Proof

/-- A byte: 8 bits, bit 7 the most significant (rule R13). -/
abbrev Byte := BitVec 8

/-- Format HOST, the 69-bit host command word (rule R80). -/
abbrev HostWord := BitVec 69

/-- The level of a line (rules R27, R28). -/
inductive Level where
  | low
  | high
  deriving DecidableEq, Repr, Inhabited

/-- The three output lines the block drives (rule R27). -/
inductive Line where
  | cs
  | dc
  | rst
  deriving DecidableEq, Repr, Inhabited

/-- What the environment answers to one `SpiWrite` (rules R17, R131): all bytes written, or an error after `delivered`
bytes of the list reached the wire (an index past the end of the list stands for the whole list). -/
inductive SpiAnswer where
  | ok
  | error (delivered : Nat)
  deriving DecidableEq, Repr, Inhabited

/-- The result part of a `SpiWrite` event (rule R16). -/
inductive SpiResult where
  | ok
  | error
  deriving DecidableEq, Repr, Inhabited

/-- An event of the wire trace: one use of one primitive (rules R6, R16, R130 to R134). -/
inductive Event where
  | drive (line : Line) (level : Level)
  | spiWrite (bytes : List Byte) (result : SpiResult)
  | sample (level : Level)
  | delay (ms : Nat)
  deriving DecidableEq, Repr

/-- The working registers and the micro-step counter (rules R25, R26), each at the width of R26's table. The
index registers `idx`, `bit`, `ly`, `g`, `i` and `k` are unsigned numbers below two to their width, so each can hold every
value of its width (assumption log 7). -/
structure WorkRegs where
  /-- Micro-step counter, 8 bits (rule R25). -/
  upc   : BitVec 8
  /-- Operation select, 3 bits. -/
  op    : BitVec 3
  /-- Coordinate, 32 bits signed. -/
  x     : BitVec 32
  /-- Coordinate, 32 bits signed. -/
  y     : BitVec 32
  /-- Colour code, 2 bits. -/
  color : BitVec 2
  /-- Plane byte index, 12 bits; 0..3812 are used. -/
  idx   : Fin 4096
  /-- Bit number in the plane byte, 3 bits. -/
  bit   : Fin 8
  /-- Driver row, 8 bits; 0..249 are used. -/
  ly    : Fin 256
  /-- Column group, 5 bits. -/
  g     : Fin 32
  /-- Sub-position, 2 bits. -/
  i     : Fin 4
  /-- Colour code of the current pixel, 2 bits. -/
  code  : BitVec 2
  /-- Frame byte being packed, 8 bits. -/
  acc   : BitVec 8
  /-- Position in the initialization table, 4 bits; 0..13 are used. -/
  k     : Fin 16
  deriving DecidableEq, Repr, Inhabited

end Sys2Proof
end

