-- ==== Sys2Proof/Config.lean ====
section
/-! DEFINITION. The constants the spec fixes (rule R11), the parameters it leaves open (rule R12), and the free values
of the environment and of the unspecified registers. An `opaque` constant has no body: nothing can be proved of its value. -/

namespace Sys2Proof.Config

/-! ## Constants (rule R11) -/

/-- Canvas width in pixels. -/
abbrev WIDTH : Nat := 250
/-- Canvas height in pixels. -/
abbrev HEIGHT : Nat := 122
/-- Bytes of one plane. -/
abbrev PLANE_BYTES : Nat := 3813
/-- Range of the driver row. -/
abbrev PANEL_ROWS : Nat := 250
/-- Range of the driver column. -/
abbrev PANEL_COLS : Nat := 128
/-- Colour codes per frame byte. -/
abbrev PIX_PER_BYTE : Nat := 4
/-- Frame bytes per driver row. -/
abbrev GROUPS_PER_ROW : Nat := 32
/-- Bytes of one frame. -/
abbrev FRAME_BYTES : Nat := 8000
/-- The constant of `y = 121 - col`. -/
abbrev Y_TOP : Int := 121

def CODE_BLACK  : BitVec 2 := 0
def CODE_WHITE  : BitVec 2 := 1
def CODE_YELLOW : BitVec 2 := 2
def CODE_RED    : BitVec 2 := 3
/-- Padding code of a driver column with no buffer pixel. -/
def PAD_CODE    : BitVec 2 := 2

abbrev RST_LOW_MS    : Nat := 10
abbrev RST_SETTLE_MS : Nat := 10
abbrev POLL_MS       : Nat := 1

def OP_SWRESET : Byte := 0x01
def OP_PON     : Byte := 0x04
def OP_DTM     : Byte := 0x10
def OP_DRF     : Byte := 0x12

/-- Number of entries of the initialization table (rules R11, R172). -/
abbrev N_CFG : Nat := 14

/-- The 14 configuration opcodes, in order (rules R11, R31). -/
def CFG_OPS : Vector Byte 14 :=
  #v[0x4D, 0x00, 0x01, 0x03, 0x06, 0x50, 0x60, 0x61, 0xE7, 0xE3, 0xB4, 0xB5, 0xE9, 0x30]

/-- What a plane byte that nothing has written since reset or CLEAR reads as (rules R37, R110). -/
def CLEAR_BYTE : Byte := 0xFF

/-! ## Parameters the spec leaves open (rule R12) -/

/-- `CFG_PAYLOAD[k]`, the payload of table entry `k`, of any length including 0 (rules R12, R31, decision D16). -/
opaque cfgPayload : Fin 14 → List Byte

/-- `LINE_INIT`, the level of each output line before the block first drives it (rule R12, decision D7). -/
opaque lineInit : Line → Level

/-- `SPI_MODE`, read by no rule (rule R12, decision D21). -/
opaque spiMode : Nat
/-- `SPI_BIT_ORDER`, read by no rule (rule R12, decision D21). -/
opaque spiBitOrder : Bool
/-- `SPI_HZ`, read by no rule (rule R12, decision D21). -/
opaque spiHz : Nat

/-! ## Free values -/

/-- The environment's answer to a `Sample(BUSY)` that the state's queue does not give (rules R17, R132). -/
opaque freeBusy : Nat → Level

/-- The environment's answer to a `SpiWrite` that the state's queue does not give (rules R17, R131). -/
opaque freeSpi : Nat → SpiAnswer

/-- The contents of the working registers between operations: any value (rules R25, R26, R37; item U17). -/
opaque freeWork : Nat → WorkRegs

end Sys2Proof.Config
end

