-- ==== Sys2Proof/Syntax.lean ====
section
/-! DEFINITION. The instructions: the six host operations (rule R81) and the eighteen wire commands (rule R90), one
constructor per row of spec/opcode_table.json, with the positions at which the block emits the wire commands. -/

namespace Sys2Proof

/-- The four colours (rule R82). -/
inductive Color where
  | black
  | white
  | yellow
  | red
  deriving DecidableEq, Repr, Inhabited

/-- The 2-bit colour code (rule R82). -/
def Color.code : Color → BitVec 2
  | .black  => Config.CODE_BLACK
  | .white  => Config.CODE_WHITE
  | .yellow => Config.CODE_YELLOW
  | .red    => Config.CODE_RED

/-- The position of a command frame among the scripts (rule R90): frame 1 to 16 of INIT (here counted from 0), the
only frame of UPDATE_FRAMES, the only frame of DISPLAY_FRAME. -/
inductive Site where
  | init (n : Fin 16)
  | update
  | display
  deriving DecidableEq, Repr, Inhabited

/-- The instructions of the opcode table. The first six are host operations; the rest are command frames of the
sequencer's scripts. DRAW_PIXEL carries its coordinates as integers (rule R87). -/
inductive Instr where
  | clear
  | drawPixel (x y : Int) (color : Color)
  | getSize
  | init
  | updateFrames
  | displayFrame
  | wSwreset
  | wCfg4d
  | wCfg00
  | wCfg01
  | wCfg03
  | wCfg06
  | wCfg50
  | wCfg60
  | wCfg61
  | wCfgE7
  | wCfgE3
  | wCfgB4
  | wCfgB5
  | wCfgE9
  | wCfg30
  | wPon
  | wDtm
  | wDrf
  deriving DecidableEq, Repr, Inhabited

end Sys2Proof
end

