-- ==== Sys2Proof/WellFormed.lean ====
section
/-! DEFINITION. Which instructions the host word can express: DRAW_PIXEL's coordinates are signed 32-bit values
(rules R12, R80, R87); no other instruction has an operand to check. -/

namespace Sys2Proof

/-- The range of a signed two's-complement coordinate of `COORD_W` = 32 bits (rule R87). -/
abbrev CoordInRange (v : Int) : Prop := -2147483648 ≤ v ∧ v ≤ 2147483647

/-- The check: both coordinates of DRAW_PIXEL fit their 32-bit fields. -/
def wellFormed : Instr → Bool
  | .drawPixel x y _ => decide (CoordInRange x) && decide (CoordInRange y)
  | .clear | .getSize | .init | .updateFrames | .displayFrame => true
  | .wSwreset | .wCfg4d | .wCfg00 | .wCfg01 | .wCfg03 | .wCfg06 | .wCfg50 | .wCfg60 | .wCfg61 => true
  | .wCfgE7 | .wCfgE3 | .wCfgB4 | .wCfgB5 | .wCfgE9 | .wCfg30 | .wPon | .wDtm | .wDrf => true

/-- An instruction the encodings of rules R80 and R90 can express. -/
abbrev WellFormed (i : Instr) : Prop := wellFormed i = true

end Sys2Proof
end

