-- ==== Sys2Proof/Decode.lean ====
section
/-! DEFINITION. Decoding of host words and of the opcode bytes in the block's scripts, total and rejecting by name, and
after it the encoder, written from the same tables (rules R80 to R82, R87, R89 to R91, R93). -/

namespace Sys2Proof

/-- What the block decodes: a host word, or the opcode byte that stands at a position of a script. The position is part
of it because rows W_SWRESET and W_CFG_01 have the same byte (rules R89, R90). -/
inductive Code where
  | host (w : HostWord)
  | wire (site : Site) (opcode : Byte)
  deriving DecidableEq, Repr

/-- Why a code is no instruction. -/
inductive DecodeError where
  /-- Host `op` 6 or 7 (rule R91). -/
  | reservedOp (op : BitVec 3)
  /-- A byte other than the one rule R90 puts at the position (rule R93). -/
  | opcodeNotAtSite (site : Site) (opcode : Byte)
  deriving DecidableEq, Repr

/-! ## Fields of the host word (rule R80) -/

/-- `H[68:66]`. -/
def opField (w : HostWord) : BitVec 3 := w.extractLsb' 66 3
/-- `H[65:64]`. -/
def colorField (w : HostWord) : BitVec 2 := w.extractLsb' 64 2
/-- `H[63:32]`. -/
def xField (w : HostWord) : BitVec 32 := w.extractLsb' 32 32
/-- `H[31:0]`. -/
def yField (w : HostWord) : BitVec 32 := w.extractLsb' 0 32

/-- The colour a 2-bit code names (rule R82); all four codes are colours (rule R93). -/
def Color.ofCode (c : BitVec 2) : Color :=
  match c.toNat with
  | 0 => .black
  | 1 => .white
  | 2 => .yellow
  | _ => .red

/-- Decoding of a host word (rules R81, R87, R91); fields an operation does not read are ignored (rule R80). -/
def decodeHost (w : HostWord) : Except DecodeError Instr :=
  match (opField w).toNat with
  | 0 => .ok .clear
  | 1 => .ok (.drawPixel (xField w).toInt (yField w).toInt (Color.ofCode (colorField w)))
  | 2 => .ok .getSize
  | 3 => .ok .init
  | 4 => .ok .updateFrames
  | 5 => .ok .displayFrame
  | _ => .error (.reservedOp (opField w))

/-! ## Wire commands (rule R90) -/

/-- One row of format WCMD: where the command stands, its opcode byte, the instruction. -/
structure WireRow where
  site   : Site
  opcode : Byte
  instr  : Instr
  deriving DecidableEq, Repr

/-- The eighteen WCMD rows of the opcode table in the order of rule R90. -/
def wireRows : List WireRow :=
  [⟨.init 0, 0x01, .wSwreset⟩, ⟨.init 1, 0x4D, .wCfg4d⟩, ⟨.init 2, 0x00, .wCfg00⟩, ⟨.init 3, 0x01, .wCfg01⟩,
   ⟨.init 4, 0x03, .wCfg03⟩, ⟨.init 5, 0x06, .wCfg06⟩, ⟨.init 6, 0x50, .wCfg50⟩, ⟨.init 7, 0x60, .wCfg60⟩,
   ⟨.init 8, 0x61, .wCfg61⟩] ++
  [⟨.init 9, 0xE7, .wCfgE7⟩, ⟨.init 10, 0xE3, .wCfgE3⟩, ⟨.init 11, 0xB4, .wCfgB4⟩, ⟨.init 12, 0xB5, .wCfgB5⟩,
   ⟨.init 13, 0xE9, .wCfgE9⟩, ⟨.init 14, 0x30, .wCfg30⟩, ⟨.init 15, 0x04, .wPon⟩, ⟨.update, 0x10, .wDtm⟩,
   ⟨.display, 0x12, .wDrf⟩]

/-- The instruction of an opcode byte at a position; any other byte there is rejected (rule R93). -/
def decodeWire (site : Site) (opcode : Byte) : Except DecodeError Instr :=
  match wireRows.find? (fun r => decide (r.site = site ∧ r.opcode = opcode)) with
  | some r => .ok r.instr
  | none   => .error (.opcodeNotAtSite site opcode)

/-- The decoder. -/
def decode : Code → Except DecodeError Instr
  | .host w => decodeHost w
  | .wire site b => decodeWire site b

/-! ## The scripts' opcodes -/

/-- The sixteen opcodes INIT emits, in order (rules R90, R170). -/
def initOpcodes : Vector Byte 16 :=
  #v[0x01, 0x4D, 0x00, 0x01, 0x03, 0x06, 0x50, 0x60, 0x61, 0xE7, 0xE3, 0xB4, 0xB5, 0xE9, 0x30, 0x04]

/-- The opcode byte the scripts hold at a position (rules R90, R180, R200). -/
def scriptOpcode : Site → Byte
  | .init n  => initOpcodes[n]
  | .update  => Config.OP_DTM
  | .display => Config.OP_DRF

/-! ## The encoder -/

/-- A host word from its fields (rule R80). -/
def hostWord (op : BitVec 3) (color : BitVec 2) (x y : BitVec 32) : HostWord := op ++ color ++ x ++ y

/-- The encoding of an instruction: a host operation's word with the fields it does not read at 0, a wire command's
byte at its position (rules R81, R87, R90). -/
def encode : Instr → Code
  | .clear             => .host (hostWord 0 0 0 0)
  | .drawPixel x y c   => .host (hostWord 1 c.code (BitVec.ofInt 32 x) (BitVec.ofInt 32 y))
  | .getSize           => .host (hostWord 2 0 0 0)
  | .init              => .host (hostWord 3 0 0 0)
  | .updateFrames      => .host (hostWord 4 0 0 0)
  | .displayFrame      => .host (hostWord 5 0 0 0)
  | .wSwreset          => .wire (.init 0) 0x01
  | .wCfg4d            => .wire (.init 1) 0x4D
  | .wCfg00            => .wire (.init 2) 0x00
  | .wCfg01            => .wire (.init 3) 0x01
  | .wCfg03            => .wire (.init 4) 0x03
  | .wCfg06            => .wire (.init 5) 0x06
  | .wCfg50            => .wire (.init 6) 0x50
  | .wCfg60            => .wire (.init 7) 0x60
  | .wCfg61            => .wire (.init 8) 0x61
  | .wCfgE7            => .wire (.init 9) 0xE7
  | .wCfgE3            => .wire (.init 10) 0xE3
  | .wCfgB4            => .wire (.init 11) 0xB4
  | .wCfgB5            => .wire (.init 12) 0xB5
  | .wCfgE9            => .wire (.init 13) 0xE9
  | .wCfg30            => .wire (.init 14) 0x30
  | .wPon              => .wire (.init 15) 0x04
  | .wDtm              => .wire .update 0x10
  | .wDrf              => .wire .display 0x12

/-! ## Words numbered as the opcode table numbers them -/

/-- The code of a table word: 8 bits or fewer are a WCMD opcode, taken at the first position that holds the byte (so
0x01 is W_SWRESET; assumption log 12); more are a host word, which has no bit above bit 68. -/
def tableCode (nbits w : Nat) : Option Code :=
  if nbits ≤ 8 then
    (wireRows.find? (fun r => decide (r.opcode.toNat = w))).map (fun r => .wire r.site r.opcode)
  else if w < 2 ^ 69 then some (.host (BitVec.ofNat 69 w))
  else none

/-- The instruction the decoder reads from a table word; none where it refuses. -/
def decodeTableWord (nbits w : Nat) : Option Instr :=
  match tableCode nbits w with
  | none => none
  | some c =>
    match decode c with
    | .ok i => some i
    | .error _ => none

end Sys2Proof
end

