-- ==== Sys2Proof/Machine/State.lean ====
section
/-! DEFINITION. The state of the block as plain data (rules R20 to R29, R37), the model's own fields beside it (what the
host and the environment have ready, and what an observer has seen), the reasons a step can stop, and the state after reset. -/

namespace Sys2Proof.Machine

/-- One plane's memory: pairs of index and byte, indexes strictly rising, no byte equal to what an unlisted index reads
as, `Config.CLEAR_BYTE` (rules R21, R37; assumption log 1). -/
abbrev Memory := List Host.Cell

/-- The names of the three planes (rule R21). -/
inductive Plane where
  | bw
  | red
  | yellow
  deriving DecidableEq, Repr, Inhabited

/-- The three bitplanes (rule R21). -/
structure Planes where
  bw     : Memory
  red    : Memory
  yellow : Memory
  deriving DecidableEq, Repr

/-- The life-cycle phase (rule R24). -/
inductive Phase where
  | uninitialized
  | resetPulsed
  | softwareResetSent
  | configured
  | poweredOn
  | ready
  deriving DecidableEq, Repr, Inhabited

/-- The four busy-waits (rule R67). -/
inductive WaitPoint where
  | afterReset
  | afterSwReset
  | afterPowerOn
  | afterRefresh
  deriving DecidableEq, Repr, Inhabited

/-- What the sequencer does next: nothing (between operations), a sample of BUSY, or the command frame at a position of
the running script (rule R136; assumption log 3). -/
inductive Seq where
  | idle
  | wait (w : WaitPoint)
  | frame (site : Site)
  deriving DecidableEq, Repr, Inhabited

/-- The pair GET_SIZE returns, `(width, height)` (rules R30, R116). -/
abbrev Size := BitVec 32 × BitVec 32

/-- The state. `planes`, `phase`, `work`, `cs`, `dc`, `rst` and `res` are the block's (rule R20); `seq` is the script
position the spec implies; the rest is the model's own: what the host and the environment have ready, and the record of
what left the block. -/
structure State where
  /-- The three bitplanes (rule R21). -/
  planes    : Planes
  /-- The life-cycle phase (rule R24). -/
  phase     : Phase
  /-- Micro-step counter and working registers (rules R25, R26). -/
  work      : WorkRegs
  /-- Latch of CS (rule R27). -/
  cs        : Level
  /-- Latch of DC (rule R27). -/
  dc        : Level
  /-- Latch of RST (rule R27). -/
  rst       : Level
  /-- Result register: 0 `Ok`, 1 `TransferError` (rule R29). -/
  res       : BitVec 1
  /-- Where the running script stands (rule R136). -/
  seq       : Seq
  /-- Model's own: the host words the host has still to issue, the next one first (rule R254). -/
  requests  : List HostWord
  /-- Model's own: the environment's next answers to `Sample(BUSY)`, the next one first (rule R17). -/
  busyIn    : List Level
  /-- Model's own: the environment's next answers to `SpiWrite`, the next one first (rule R17). -/
  spiIn     : List SpiAnswer
  /-- Model's own: how many free values have been used. -/
  freeCount : Nat
  /-- Model's own: the wire trace of the run, oldest event first (rule R16). -/
  trace     : List Event
  /-- Model's own: the bytes that reached the wire, oldest first, each with the DC level in force (rules R85, R131). -/
  wire      : List (Level × Byte)
  /-- Model's own: what the last completed host operation returned beside `res` (rule R116). -/
  reply     : Option Size
  deriving DecidableEq, Repr

/-- Reasons to stop with a fault. There is none: the one fault of the spec, TransferError, ends a host operation and
not the machine (rules R211, R212), so it is a next state; a plane access outside 0..3812 cannot be expressed. Safe. -/
inductive Fault where
  deriving DecidableEq, Repr

/-- Reasons to refuse: requests to which the spec gives no step (rule R216). All are safe: the run ends there. -/
inductive Refusal where
  /-- Raised by an arm of `exec` that has no meaning yet; no arm raises it now. Safe. -/
  | notModelled (mnemonic : String)
  /-- Raised by the step for a host word with `op` 6 or 7 (rule R91). Safe. -/
  | reservedOp (op : BitVec 3)
  /-- Raised by INIT outside `Uninitialized` and by UPDATE_FRAMES and DISPLAY_FRAME outside `Ready` (rule R92). Safe. -/
  | wrongPhase (phase : Phase)
  /-- Raised by a host operation executed while another one runs; the step never does that (rule R92). Safe. -/
  | operationRunning
  /-- Raised by a wire command executed where the running script does not stand at its position; the step never does
  that (rule R93). Safe. -/
  | notAtItsPosition
  /-- Raised by the step for a script byte that is not its position's opcode; no script holds one (rule R93). Safe. -/
  | opcodeNotAtSite (site : Site) (opcode : Byte)
  deriving DecidableEq, Repr

/-- The working registers after reset: unspecified by rule R37, each 0 here (assumption log 2). -/
def resetWork : WorkRegs where
  upc   := 0
  op    := 0
  x     := 0
  y     := 0
  color := 0
  idx   := 0
  bit   := 0
  ly    := 0
  g     := 0
  i     := 0
  code  := 0
  acc   := 0
  k     := 0

/-- The state after power-on reset (rules R37, R240): planes clear, phase `Uninitialized`, `res` 0, latches at
`LINE_INIT`, trace empty. No host word and no answer of the environment is ready. -/
def State.reset : State where
  planes    := ⟨[], [], []⟩
  phase     := .uninitialized
  work      := resetWork
  cs        := Config.lineInit .cs
  dc        := Config.lineInit .dc
  rst       := Config.lineInit .rst
  res       := 0
  seq       := .idle
  requests  := []
  busyIn    := []
  spiIn     := []
  freeCount := 0
  trace     := []
  wire      := []
  reply     := none

end Sys2Proof.Machine
end

