-- ==== Sys2Proof/Machine/Flags.lean ====
section
/-! DEFINITION. The result register and the phase at the end of an operation (rules R29, R213, R217). The block has no
condition codes (rule R29). -/

namespace Sys2Proof.Machine

/-- `res` = 0, `Ok` (rule R29). -/
def RES_OK : BitVec 1 := 0

/-- `res` = 1, `TransferError` (rule R29). -/
def RES_TRANSFER_ERROR : BitVec 1 := 1

/-- The phase after a TransferError raised where the script stands at `q`: `Uninitialized` in INIT, unchanged in
UPDATE_FRAMES and DISPLAY_FRAME (rule R213). -/
def phaseAfterFault (q : Seq) (phase : Phase) : Phase :=
  match q with
  | .frame (.init _) => .uninitialized
  | .frame .update   => phase
  | .frame .display  => phase
  | .wait _          => phase
  | .idle            => phase

/-- The end of a host operation: `res` and the returned value are given to the host, the sequencer is idle, and from
here the working registers hold any value (rules R25, R26, R29; item U17). -/
def endOperation (res : BitVec 1) (reply : Option Size) (s : State) : State :=
  { s with
    res       := res
    reply     := reply
    seq       := .idle
    work      := Config.freeWork s.freeCount
    freeCount := s.freeCount + 1 }

/-- Normal end of an operation that returns nothing but `res` = 0 (rule R210). -/
def complete (s : State) : State := endOperation RES_OK none s

end Sys2Proof.Machine
end

