-- ==== Sys2Proof/Machine/Operands.lean ====
section
/-! DEFINITION. The operands and addresses: the bounds check, `PlaneAddr`, `WireAddr` (rules R56, R59, R63, R87, R88). -/

namespace Sys2Proof.Machine

/-- A pixel of the canvas: coordinates that passed the bounds check (rule R59). -/
structure Pixel where
  x : Fin 250
  y : Fin 122
  deriving DecidableEq, Repr

/-- `InBounds(x, y)`, on signed integers (rule R59). -/
abbrev InBounds (x y : Int) : Prop := 0 ≤ x ∧ x < 250 ∧ 0 ≤ y ∧ y < 122

/-- The bounds check of rule R59: the pixel at `(x, y)`, none when it is outside the canvas. -/
def pixelAt (x y : Int) : Option Pixel :=
  if h : InBounds x y then some ⟨⟨x.toNat, by omega⟩, ⟨y.toNat, by omega⟩⟩ else none

/-- `idx` of `PlaneAddr`: `(y*250 + x) div 8` (rule R56). -/
def planeIdx (p : Pixel) : Fin 3813 :=
  ⟨(p.y.val * 250 + p.x.val) / 8, by have := p.x.isLt; have := p.y.isLt; omega⟩

/-- `bit` of `PlaneAddr`: `7 - (x mod 8)`, taken from `x` alone (rule R56). -/
def planeBit (p : Pixel) : Fin 8 := ⟨7 - p.x.val % 8, by omega⟩

/-- The index below `n` that an index register holds; none for a value of its width that no rule uses (rule R26). -/
def indexBelow (n : Nat) {m : Nat} (v : Fin m) : Option (Fin n) := if h : v.val < n then some ⟨v.val, h⟩ else none

/-- `PlaneAddr` into its registers (rules R26, R56). -/
def withAddr (p : Pixel) (w : WorkRegs) : WorkRegs :=
  { w with idx := (planeIdx p).castLE (by decide), bit := planeBit p }

/-- The byte with the one bit `bit` set (rule R112). -/
def bitMask (bit : Fin 8) : Byte := 1 <<< bit.val

/-- `WireAddr`, from a pixel to its frame byte `n` (rule R63). -/
def wireByte (p : Pixel) : Nat := 32 * p.x.val + (121 - p.y.val) / 4

/-- `WireAddr`, from a pixel to its slot `i` in the frame byte (rule R63). -/
def wireSlot (p : Pixel) : Nat := (121 - p.y.val) % 4

/-- The field of slot `i` of a frame byte, bits `[7-2i : 6-2i]` (rules R63, R84). -/
def slotCode (v : Byte) (i : Nat) : BitVec 2 := v.extractLsb' (6 - 2 * i) 2

end Sys2Proof.Machine
end

