-- ==== Sys2Proof/Machine/Ops.lean ====
section
/-! DEFINITION. The named operations over the planes and the ports: plane access, the four micro-operations, the two
phases of a command, the TransferError entry, the busy-wait, and the admission of a host operation. -/

namespace Sys2Proof.Machine

/-! ## Plane memory (rules R21, R117) -/

/-- The byte at an index; `Config.CLEAR_BYTE` where the memory lists none. -/
def Memory.read : Memory → Nat → Byte
  | [], _ => Config.CLEAR_BYTE
  | (b, u) :: m, a => if a = b then u else Memory.read m a

/-- Replaces the byte at an index, keeping the canonical form. -/
def Memory.write : Memory → Nat → Byte → Memory
  | [], a, v => if v = Config.CLEAR_BYTE then [] else [(a, v)]
  | (b, u) :: m, a, v =>
    if a < b then (if v = Config.CLEAR_BYTE then (b, u) :: m else (a, v) :: (b, u) :: m)
    else if a = b then (if v = Config.CLEAR_BYTE then m else (a, v) :: m)
    else (b, u) :: Memory.write m a v

/-- The canonical form: indexes strictly rising and inside the plane, no byte equal to what an unlisted index reads as. -/
abbrev Memory.wf (m : Memory) : Prop :=
  m.Pairwise (fun c d => c.1 < d.1) ∧ ∀ c ∈ m, c.1 < 3813 ∧ c.2 ≠ Config.CLEAR_BYTE

/-- The canonical form of all three planes. -/
abbrev Planes.wf (pl : Planes) : Prop := pl.bw.wf ∧ pl.red.wf ∧ pl.yellow.wf

/-- The memory of one plane. -/
def Planes.mem (pl : Planes) : Plane → Memory
  | .bw     => pl.bw
  | .red    => pl.red
  | .yellow => pl.yellow

/-- `PlaneRead(p, idx)` (rules R15, R117). -/
def planeRead (pl : Planes) (p : Plane) (idx : Fin 3813) : Byte := (pl.mem p).read idx

/-- `PlaneWrite(p, idx, v)` (rules R15, R117). -/
def planeWrite (pl : Planes) (p : Plane) (idx : Fin 3813) (v : Byte) : Planes :=
  match p with
  | .bw     => { pl with bw := pl.bw.write idx v }
  | .red    => { pl with red := pl.red.write idx v }
  | .yellow => { pl with yellow := pl.yellow.write idx v }

/-- One bit of a plane: true is 1, inactive (rules R22, R83). -/
def planeBitAt (pl : Planes) (p : Plane) (idx : Fin 3813) (bit : Fin 8) : Bool :=
  (planeRead pl p idx).getLsbD bit

/-- `PlaneBit(p, x, y)`, the bit of a pixel in a plane (rule R117). -/
def planeBitOf (pl : Planes) (p : Plane) (px : Pixel) : Bool := planeBitAt pl p (planeIdx px) (planeBit px)

/-- Sets one bit of a plane to 1: `PlaneWrite(p, idx, PlaneRead(p, idx) | m)` (rule R112). -/
def setPlaneBit (p : Plane) (idx : Fin 3813) (bit : Fin 8) (pl : Planes) : Planes :=
  planeWrite pl p idx (planeRead pl p idx ||| bitMask bit)

/-- Sets one bit of a plane to 0: `PlaneWrite(p, idx, PlaneRead(p, idx) & ~m)` (rule R112). -/
def clearPlaneBit (p : Plane) (idx : Fin 3813) (bit : Fin 8) (pl : Planes) : Planes :=
  planeWrite pl p idx (planeRead pl p idx &&& ~~~bitMask bit)

/-! ## The environment's answers (rule R17) -/

/-- The level the environment answers next; free where the queue gives none. -/
def nextBusy (s : State) : Level :=
  match s.busyIn with
  | v :: _ => v
  | []     => Config.freeBusy s.freeCount

/-- The state after that answer is used. -/
def dropBusy (s : State) : State :=
  match s.busyIn with
  | _ :: q => { s with busyIn := q }
  | []     => { s with freeCount := s.freeCount + 1 }

/-- The answer to the next `SpiWrite`; free where the queue gives none. -/
def nextSpi (s : State) : SpiAnswer :=
  match s.spiIn with
  | a :: _ => a
  | []     => Config.freeSpi s.freeCount

/-- The state after that answer is used. -/
def dropSpi (s : State) : State :=
  match s.spiIn with
  | _ :: q => { s with spiIn := q }
  | []     => { s with freeCount := s.freeCount + 1 }

/-! ## Micro-operations (rules R130 to R134) -/

/-- Appends an event to the wire trace (rule R16). -/
def emit (e : Event) (s : State) : State := { s with trace := s.trace ++ [e] }

/-- A micro-operation has completed: `upc` advances by one (rule R25). -/
def tick (s : State) : State := { s with work := { s.work with upc := s.work.upc + 1 } }

/-- Sets a line's latch (rule R27). -/
def setLatch (l : Line) (v : Level) (s : State) : State :=
  match l with
  | .cs  => { s with cs := v }
  | .dc  => { s with dc := v }
  | .rst => { s with rst := v }

/-- `Drive(line, level)` (rule R130). -/
def drive (l : Line) (v : Level) (s : State) : State := tick (setLatch l v (emit (.drive l v) s))

/-- `Delay(ms)` as an entry of a script (rule R133). -/
def delay (ms : Nat) (s : State) : State := tick (emit (.delay ms) s)

/-- Bytes reach the wire under the DC level in force (rules R85, R131). -/
def deliver (bytes : List Byte) (s : State) : State := { s with wire := s.wire ++ bytes.map (fun b => (s.dc, b)) }

/-- `SpiWrite(bytes)` (rule R131): the state after it, or, where the environment answers `error`, the state in which
TransferError is raised, a prefix of the bytes having reached the wire. -/
def spiWrite (bytes : List Byte) (s : State) : Except State State :=
  match nextSpi s with
  | .ok      => .ok (tick (emit (.spiWrite bytes .ok) (deliver bytes (dropSpi s))))
  | .error n => .error (emit (.spiWrite bytes .error) (deliver (bytes.take n) (dropSpi s)))

/-! ## The command protocol (rules R137, R138) -/

/-- One CS window: DC to a level, CS low, one write, CS high (rule R137). -/
def csWindow (dc : Level) (bytes : List Byte) (s : State) : Except State State :=
  match spiWrite bytes (drive .cs .low (drive .dc dc s)) with
  | .ok t    => .ok (drive .cs .high t)
  | .error t => .error t

/-- `OpcodePhase(opcode)` (rule R138). -/
def opcodePhase (opcode : Byte) (s : State) : Except State State := csWindow .low [opcode] s

/-- `DataPhase(bytes)` (rule R138). -/
def dataPhase (bytes : List Byte) (s : State) : Except State State := csWindow .high bytes s

/-- `SendCommand(opcode, payload)`: an empty payload has no second phase (rule R137). -/
def sendCommand (opcode : Byte) (payload : List Byte) (s : State) : Except State State :=
  match opcodePhase opcode s with
  | .error t => .error t
  | .ok t    => if payload = [] then .ok t else dataPhase payload t

/-! ## The exception (rules R211 to R213) -/

/-- Entry into TransferError: the operation ends at the failing write, lines and planes as they are, `res` 1, the phase
by rule R213; the host may go on (rules R212, R220). There is no trap return (rule R220). -/
def transferError (s : State) : State :=
  endOperation RES_TRANSFER_ERROR none { s with phase := phaseAfterFault s.seq s.phase }

/-- What follows a transmission: the script goes on, or TransferError is taken. -/
def afterSend (after : State → State) : Except State State → State
  | .ok t    => after t
  | .error t => transferError t

/-- A command frame and what follows it. -/
def transmit (opcode : Byte) (payload : List Byte) (after : State → State) (s : State) : State :=
  afterSend after (sendCommand opcode payload s)

/-- A wire command runs only where the script stands at its position (rule R93). -/
def atSite (site : Site) (body : State → State) (s : State) : Host.Outcome State Fault Refusal :=
  if s.seq = .frame site then .next (body s) else .refused .notAtItsPosition

/-- The script goes on with the frame at a position (rule R136). -/
def goToFrame (site : Site) (s : State) : State := { s with seq := .frame site }

/-! ## The busy-wait (rules R67, R139) -/

/-- What follows the exit of a busy-wait (rules R150, R151, R200). -/
def afterWait (w : WaitPoint) (s : State) : State :=
  match w with
  | .afterReset   => { s with seq := .frame (.init 0) }
  | .afterSwReset => { s with seq := .frame (.init 1) }
  | .afterPowerOn => complete { s with phase := .ready }
  | .afterRefresh => complete s

/-- One turn of `BusyWait`: a sample; `high` leaves the loop, `low` is followed by a delay of 1 ms, `upc` and the
position staying (rules R25, R139). -/
def pollBusy (w : WaitPoint) (s : State) : State :=
  match nextBusy s with
  | .high => afterWait w (tick (emit (.sample .high) (dropBusy s)))
  | .low  => emit (.delay Config.POLL_MS) (emit (.sample .low) (dropBusy s))

/-! ## Admission of a host operation (rules R92, R219) -/

/-- The block takes a request: `op` is loaded and `upc` is 0 (rules R25, R26). -/
def accept (op : BitVec 3) (s : State) : State := { s with work := { s.work with op := op, upc := 0 } }

/-- A host operation that is admitted in some phases runs when the block is idle in one of them, else it is refused. -/
def admitWhen (op : BitVec 3) (phases : Phase → Bool) (body : State → State) (s : State) :
    Host.Outcome State Fault Refusal :=
  if s.seq = .idle then
    if phases s.phase then .next (body (accept op s)) else .refused (.wrongPhase s.phase)
  else .refused .operationRunning

/-- Admitted in every phase (rule R92). -/
def inEveryPhase (_ : Phase) : Bool := true
/-- Admitted in one phase (rule R92). -/
def inPhase (p q : Phase) : Bool := decide (q = p)

end Sys2Proof.Machine
end

