-- ==== Sys2Proof/Machine/Buffer.lean ====
section
/-! DEFINITION. The bitplane store: CLEAR, DRAW_PIXEL, GET_SIZE (rules R110 to R116). -/

namespace Sys2Proof.Machine

/-- All bytes of all planes 0xFF (rules R110, R111). -/
def clearPlanes : Planes := ⟨[], [], []⟩

/-- The two steps of a draw at a bit position: all three bits to 1, then the bit of the colour's plane to 0 (rules
R112, R114). -/
def drawPlanes (idx : Fin 3813) (bit : Fin 8) (color : BitVec 2) (pl : Planes) : Planes :=
  let pl := setPlaneBit .yellow idx bit (setPlaneBit .red idx bit (setPlaneBit .bw idx bit pl))
  if color = Config.CODE_BLACK then clearPlaneBit .bw idx bit pl
  else if color = Config.CODE_RED then clearPlaneBit .red idx bit pl
  else if color = Config.CODE_YELLOW then clearPlaneBit .yellow idx bit pl
  else pl

/-- The request's operands in their registers (rules R26, R87). -/
def loadDraw (x y : Int) (color : Color) (s : State) : State :=
  { s with work := { s.work with x := BitVec.ofInt 32 x, y := BitVec.ofInt 32 y, color := color.code } }

/-- `PlaneAddr` into the block's registers (rules R26, R56). -/
def loadAddr (p : Pixel) (s : State) : State := { s with work := withAddr p s.work }

/-- The draw at the address and colour in the registers (rule R112). After `loadAddr` the index is one of the plane's
(rules R117, R121), so the last arm does not arise. -/
def paintedPlanes (w : WorkRegs) (pl : Planes) : Planes :=
  match indexBelow 3813 w.idx with
  | some idx => drawPlanes idx w.bit w.color pl
  | none     => pl

/-- The planes after that draw. -/
def paint (s : State) : State := { s with planes := paintedPlanes s.work s.planes }

/-- DRAW_PIXEL with its operands loaded: in bounds the draw (rule R112), out of bounds nothing (rule R113). -/
def drawLoaded (s : State) : State :=
  match pixelAt s.work.x.toInt s.work.y.toInt with
  | some p => complete (paint (loadAddr p s))
  | none   => complete s

/-- CLEAR's effect: every byte of every plane 0xFF, `res` 0 (rule R110). -/
def clearBuffer (s : State) : State := complete { s with planes := clearPlanes }

/-- DRAW_PIXEL's effect (rules R112, R113). -/
def drawPixel (x y : Int) (color : Color) (s : State) : State := drawLoaded (loadDraw x y color s)

/-- The pair GET_SIZE returns (rules R30, R116). -/
def canvasSize : Size := (BitVec.ofNat 32 Config.WIDTH, BitVec.ofNat 32 Config.HEIGHT)

/-- CLEAR (rule R110). -/
def execClear (s : State) : Host.Outcome State Fault Refusal :=
  admitWhen 0 inEveryPhase clearBuffer s

/-- DRAW_PIXEL (rules R112, R113). -/
def execDrawPixel (x y : Int) (color : Color) (s : State) : Host.Outcome State Fault Refusal :=
  admitWhen 1 inEveryPhase (drawPixel x y color) s

/-- GET_SIZE (rule R116). -/
def execGetSize (s : State) : Host.Outcome State Fault Refusal :=
  admitWhen 2 inEveryPhase (endOperation RES_OK (some canvasSize)) s

end Sys2Proof.Machine
end

