-- ==== Sys2Proof/Machine/FrameUpdate.lean ====
section
/-! DEFINITION. UPDATE_FRAMES and W_DTM: the pixel encoder and the transposer (rules R180 to R188). -/

namespace Sys2Proof.Machine

/-- The colour code of a plane bit position, by priority red, yellow, bw (rules R181, R182). -/
def codeAt (pl : Planes) (idx : Fin 3813) (bit : Fin 8) : BitVec 2 :=
  if planeBitAt pl .red idx bit = false then Config.CODE_RED
  else if planeBitAt pl .yellow idx bit = false then Config.CODE_YELLOW
  else if planeBitAt pl .bw idx bit = false then Config.CODE_BLACK
  else Config.CODE_WHITE

/-- `PixelCode(x, y)`: the transposer reads through `PlaneAddr` (rule R181). -/
def pixelCode (pl : Planes) (p : Pixel) : BitVec 2 := codeAt pl (planeIdx p) (planeBit p)

/-- The buffer coordinates of the current slot into their registers: `x = ly`, `y = 121 - col` (rules R88, R183). -/
def slotCoords (w : WorkRegs) : WorkRegs :=
  { w with
    x := BitVec.ofNat 32 w.ly.val
    y := BitVec.ofInt 32 (Config.Y_TOP - (4 * w.g.val + w.i.val : Nat)) }

/-- The code of the current slot into its register: the padding code where no buffer pixel is (rule R183). -/
def slotToCode (pl : Planes) (w : WorkRegs) : WorkRegs :=
  match pixelAt w.x.toInt w.y.toInt with
  | none   => { w with code := Config.PAD_CODE }
  | some p => { withAddr p w with code := codeAt pl (planeIdx p) (planeBit p) }

/-- Packing: `acc <- ((acc << 2) | code)[7:0]` (rule R184). -/
def packCode (w : WorkRegs) : WorkRegs := { w with acc := (w.acc <<< 2) ||| w.code.setWidth 8 }

/-- One turn of the inner loop at sub-position `i` (rule R183). -/
def slotStep (pl : Planes) (w : WorkRegs) (i : Fin 4) : WorkRegs :=
  packCode (slotToCode pl (slotCoords { w with i := i }))

/-- One turn of the middle loop at group `g`: `acc` from 0, four slots (rule R183). -/
def byteStep (pl : Planes) (w : WorkRegs) (g : Fin 32) : WorkRegs :=
  (List.finRange 4).foldl (slotStep pl) { w with g := g, acc := 0 }

/-- A loop turn that emits the byte in `acc` (rule R183, `F[n] <- acc`). -/
def emitByte (pl : Planes) (r : WorkRegs × List Byte) (g : Fin 32) : WorkRegs × List Byte :=
  let w := byteStep pl r.1 g
  (w, r.2 ++ [w.acc])

/-- One turn of the outer loop at driver row `ly` (rule R183). -/
def rowStep (pl : Planes) (r : WorkRegs × List Byte) (ly : Fin 250) : WorkRegs × List Byte :=
  (List.finRange 32).foldl (emitByte pl) ({ r.1 with ly := ly.castLE (by decide) }, r.2)

/-- `Frame(bw, red, yellow)`, the loop form: the registers after the loops and the 8000 frame bytes (rule R183). -/
def transpose (pl : Planes) (w : WorkRegs) : WorkRegs × List Byte :=
  (List.finRange 250).foldl (rowStep pl) (w, [])

/-- The data half of W_DTM: the frame is computed and sent in one CS window (rules R180, R186). -/
def sendFrame (s : State) : Except State State :=
  let r := transpose s.planes s.work
  dataPhase r.2 { s with work := r.1 }

/-- The frame of UPDATE_FRAMES: the opcode phase, then the data phase, and with it the end of the operation, or
TransferError at either write (rules R180, R186, R187). -/
def frameUpdate (s : State) : State :=
  match opcodePhase Config.OP_DTM s with
  | .error t => transferError t
  | .ok t    => afterSend complete (sendFrame t)

/-- UPDATE_FRAMES is admitted; its one frame is a step of its own (rule R180). -/
def execUpdateFrames (s : State) : Host.Outcome State Fault Refusal :=
  admitWhen 4 (inPhase .ready) (goToFrame .update) s

/-- W_DTM, the only frame of UPDATE_FRAMES (rule R186). -/
def execWDtm (s : State) : Host.Outcome State Fault Refusal := atSite .update frameUpdate s

end Sys2Proof.Machine
end

