-- ==== Sys2Proof/Machine/Refresh.lean ====
section
/-! DEFINITION. DISPLAY_FRAME and W_DRF (rules R200 to R203). -/

namespace Sys2Proof.Machine

/-- DISPLAY_FRAME is admitted; its frame and its busy-wait are steps of their own (rule R200). -/
def execDisplayFrame (s : State) : Host.Outcome State Fault Refusal :=
  admitWhen 5 (inPhase .ready) (goToFrame .display) s

/-- The script goes on with the busy-wait of the refresh (rule R200). -/
def goToRefreshWait (s : State) : State := { s with seq := .wait .afterRefresh }

/-- W_DRF, the only frame of DISPLAY_FRAME, followed by the busy-wait (rules R200, R201). -/
def execWDrf (s : State) : Host.Outcome State Fault Refusal :=
  atSite .display (transmit Config.OP_DRF [] goToRefreshWait) s

end Sys2Proof.Machine
end

