-- ==== Sys2Proof/Machine/Sequencer.lean ====
section
/-! DEFINITION. INIT and the sixteen command frames it emits (rules R140, R150 to R169). -/

namespace Sys2Proof.Machine

/-- `ResetPulse` (rule R140). -/
def resetPulse (s : State) : State :=
  delay Config.RST_SETTLE_MS (drive .rst .high (delay Config.RST_LOW_MS (drive .rst .low s)))

/-- INIT up to its first busy-wait (rules R150, R151); the frames and waits after it are steps of their own. -/
def beginInit (s : State) : State :=
  let t := resetPulse { s with phase := .uninitialized }
  { t with phase := .resetPulsed, seq := .wait .afterReset }

/-- The script goes on with a busy-wait in a new phase (rule R151). -/
def goToWait (phase : Phase) (w : WaitPoint) (s : State) : State := { s with phase := phase, seq := .wait w }

/-- The end of the configuration loop: phase `Configured`, then the power-on frame with no wait between (rules R150,
R151, R168). -/
def configured (s : State) : State := { s with phase := .configured, seq := .frame (.init 15) }

/-- The loop position into its register (rules R26, R150). -/
def loadEntry (k : Fin 14) (s : State) : State := { s with work := { s.work with k := k.castLE (by decide) } }

/-- The opcode and payload of the table entry in register `k` are sent (rules R31, R54, R150). After `loadEntry` the
register holds a position of the table, so the last arm does not arise. -/
def sendEntry (after : State → State) (s : State) : State :=
  match indexBelow 14 s.work.k with
  | some k => transmit Config.CFG_OPS[k] (Config.cfgPayload k) after s
  | none   => s

/-- Table entry `k` (rule R150): `k` is loaded, then its opcode and payload are sent. -/
def configEntry (k : Fin 14) (after : State → State) (s : State) : State := sendEntry after (loadEntry k s)

/-- INIT (rule R150). -/
def execInit (s : State) : Host.Outcome State Fault Refusal := admitWhen 3 (inPhase .uninitialized) beginInit s

/-- W_SWRESET (rules R151, R154). -/
def execWSwreset (s : State) : Host.Outcome State Fault Refusal :=
  atSite (.init 0) (transmit Config.OP_SWRESET [] (goToWait .softwareResetSent .afterSwReset)) s

/-- W_CFG_4D (rule R155). -/
def execWCfg4d (s : State) : Host.Outcome State Fault Refusal :=
  atSite (.init 1) (configEntry 0 (goToFrame (.init 2))) s

/-- W_CFG_00 (rule R156). -/
def execWCfg00 (s : State) : Host.Outcome State Fault Refusal :=
  atSite (.init 2) (configEntry 1 (goToFrame (.init 3))) s

/-- W_CFG_01 (rule R157). -/
def execWCfg01 (s : State) : Host.Outcome State Fault Refusal :=
  atSite (.init 3) (configEntry 2 (goToFrame (.init 4))) s

/-- W_CFG_03 (rule R158). -/
def execWCfg03 (s : State) : Host.Outcome State Fault Refusal :=
  atSite (.init 4) (configEntry 3 (goToFrame (.init 5))) s

/-- W_CFG_06 (rule R159). -/
def execWCfg06 (s : State) : Host.Outcome State Fault Refusal :=
  atSite (.init 5) (configEntry 4 (goToFrame (.init 6))) s

/-- W_CFG_50 (rule R160). -/
def execWCfg50 (s : State) : Host.Outcome State Fault Refusal :=
  atSite (.init 6) (configEntry 5 (goToFrame (.init 7))) s

/-- W_CFG_60 (rule R161). -/
def execWCfg60 (s : State) : Host.Outcome State Fault Refusal :=
  atSite (.init 7) (configEntry 6 (goToFrame (.init 8))) s

/-- W_CFG_61 (rule R162). -/
def execWCfg61 (s : State) : Host.Outcome State Fault Refusal :=
  atSite (.init 8) (configEntry 7 (goToFrame (.init 9))) s

/-- W_CFG_E7 (rule R163). -/
def execWCfgE7 (s : State) : Host.Outcome State Fault Refusal :=
  atSite (.init 9) (configEntry 8 (goToFrame (.init 10))) s

/-- W_CFG_E3 (rule R164). -/
def execWCfgE3 (s : State) : Host.Outcome State Fault Refusal :=
  atSite (.init 10) (configEntry 9 (goToFrame (.init 11))) s

/-- W_CFG_B4 (rule R165). -/
def execWCfgB4 (s : State) : Host.Outcome State Fault Refusal :=
  atSite (.init 11) (configEntry 10 (goToFrame (.init 12))) s

/-- W_CFG_B5 (rule R166). -/
def execWCfgB5 (s : State) : Host.Outcome State Fault Refusal :=
  atSite (.init 12) (configEntry 11 (goToFrame (.init 13))) s

/-- W_CFG_E9 (rule R167). -/
def execWCfgE9 (s : State) : Host.Outcome State Fault Refusal :=
  atSite (.init 13) (configEntry 12 (goToFrame (.init 14))) s

/-- W_CFG_30, the last configuration command (rule R168). -/
def execWCfg30 (s : State) : Host.Outcome State Fault Refusal :=
  atSite (.init 14) (configEntry 13 configured) s

/-- W_PON (rules R151, R169). -/
def execWPon (s : State) : Host.Outcome State Fault Refusal :=
  atSite (.init 15) (transmit Config.OP_PON [] (goToWait .poweredOn .afterPowerOn)) s

end Sys2Proof.Machine
end

