-- ==== Sys2Proof/Machine/Dispatch.lean ====
section
/-! DEFINITION. The dispatch: one arm per instruction, each a direct call of its meaning. -/

namespace Sys2Proof.Machine

def exec (i : Instr) (s : State) : Host.Outcome State Fault Refusal :=
  match i with
  | .clear => Sys2Proof.Machine.execClear s
  | .drawPixel x y color => Sys2Proof.Machine.execDrawPixel x y color s
  | .getSize => Sys2Proof.Machine.execGetSize s
  | .init => Sys2Proof.Machine.execInit s
  | .updateFrames => Sys2Proof.Machine.execUpdateFrames s
  | .displayFrame => Sys2Proof.Machine.execDisplayFrame s
  | .wSwreset => Sys2Proof.Machine.execWSwreset s
  | .wCfg4d => Sys2Proof.Machine.execWCfg4d s
  | .wCfg00 => Sys2Proof.Machine.execWCfg00 s
  | .wCfg01 => Sys2Proof.Machine.execWCfg01 s
  | .wCfg03 => Sys2Proof.Machine.execWCfg03 s
  | .wCfg06 => Sys2Proof.Machine.execWCfg06 s
  | .wCfg50 => Sys2Proof.Machine.execWCfg50 s
  | .wCfg60 => Sys2Proof.Machine.execWCfg60 s
  | .wCfg61 => Sys2Proof.Machine.execWCfg61 s
  | .wCfgE7 => Sys2Proof.Machine.execWCfgE7 s
  | .wCfgE3 => Sys2Proof.Machine.execWCfgE3 s
  | .wCfgB4 => Sys2Proof.Machine.execWCfgB4 s
  | .wCfgB5 => Sys2Proof.Machine.execWCfgB5 s
  | .wCfgE9 => Sys2Proof.Machine.execWCfgE9 s
  | .wCfg30 => Sys2Proof.Machine.execWCfg30 s
  | .wPon => Sys2Proof.Machine.execWPon s
  | .wDtm => Sys2Proof.Machine.execWDtm s
  | .wDrf => Sys2Proof.Machine.execWDrf s

end Sys2Proof.Machine
end

