-- ==== Sys2Proof/Machine/Fetch.lean ====
section
/-! DEFINITION. Where the next instruction comes from: the host's next word when the block is idle, the script's opcode
when a script stands at a frame (rules R25, R66, R136, R254); and how a table word is put there. -/

namespace Sys2Proof.Machine

/-- What a step does next. -/
inductive Fetched where
  /-- The block is idle and the host issues nothing. -/
  | nothing
  /-- The script stands at a busy-wait. -/
  | poll (w : WaitPoint)
  /-- A code to decode, and the state in which its instruction runs. -/
  | code (c : Code) (s : State)
  deriving DecidableEq, Repr

/-- The fetch: a host word is taken from the host's list only when the block is idle (rules R62, R92, R254). -/
def fetch (s : State) : Fetched :=
  match s.seq with
  | .idle =>
    match s.requests with
    | []        => .nothing
    | w :: rest => .code (.host w) { s with requests := rest }
  | .wait w => .poll w
  | .frame site => .code (.wire site (scriptOpcode site)) s

/-- The refusal of a code that is no instruction (rules R91, R93). -/
def refusalOf : DecodeError → Refusal
  | .reservedOp op        => .reservedOp op
  | .opcodeNotAtSite st b => .opcodeNotAtSite st b

/-- The phase in which a script stands at a position (rule R151). -/
def sitePhase : Site → Phase
  | .init n  => if n = 0 then .resetPulsed else if n = 15 then .configured else .softwareResetSent
  | .update  => .ready
  | .display => .ready

/-- The operation whose script holds a position (rules R81, R90). -/
def siteOp : Site → BitVec 3
  | .init _  => 3
  | .update  => 4
  | .display => 5

/-- Entries of the frame of table entry `k`: 4, or 8 with a payload (rules R137, R152). -/
def configLength (k : Fin 14) : Nat := if Config.cfgPayload k = [] then 4 else 8

/-- Entries of the frames of the first `n` table entries. -/
def configsLength (n : Nat) : Nat := (((List.finRange 14).take n).map configLength).sum

/-- The script index of the first entry of a frame (rules R25, R152). -/
def siteIndex : Site → Nat
  | .init n  => if n = 0 then 5 else 10 + configsLength (n.val - 1)
  | .update  => 0
  | .display => 0

/-- The state in which a table word is the next instruction: a host word becomes the host's next word with the block
idle in a phase that admits it; a wire command's position becomes that of the running script, with the phase, `op` and
`upc` that go with it (assumption log 13). -/
def placeCode (c : Code) (s : State) : State :=
  match c with
  | .host w =>
    { s with
      seq      := .idle
      requests := w :: s.requests
      phase    :=
        match decodeHost w with
        | .ok .init         => .uninitialized
        | .ok .updateFrames => .ready
        | .ok .displayFrame => .ready
        | _                 => s.phase }
  | .wire site _ =>
    { s with
      seq   := .frame site
      phase := sitePhase site
      work  := { s.work with op := siteOp site, upc := BitVec.ofNat 8 (siteIndex site) } }

end Sys2Proof.Machine
end

