-- ==== Sys2Proof/Machine/Step.lean ====
section
/-! DEFINITION. One step: the next instruction is fetched, decoded and executed, or a busy-wait takes one turn, or the
idle block waits for the host. -/

namespace Sys2Proof.Machine

/-- One step of the block (rules R66, R136). -/
def step (s : State) : Host.Outcome State Fault Refusal :=
  match fetch s with
  | .nothing  => .next s
  | .poll w   => .next (pollBusy w s)
  | .code c t =>
    match decode c with
    | .ok i    => exec i t
    | .error e => .refused (refusalOf e)

/-- The state in which the next step runs the instruction of a table word. A word that is no code of the table leaves
the state as it is. -/
def State.withFetchWord (s : State) (nbits w : Nat) : State :=
  match tableCode nbits w with
  | some c => placeCode c s
  | none   => s

end Sys2Proof.Machine
end

