-- ==== Sys2Proof/Safety.lean ====
section
/-! DEFINITION. The terms claims are stated in: runs of steps, the event lists the rules write out, the closed form of the
frame, what two states may differ in, and the invariants of the block. -/

namespace Sys2Proof.Machine

/-! ## Runs -/

/-- `n` steps in a row, ending early where a step stops. -/
def runFor : Nat → State → Host.Outcome State Fault Refusal
  | 0, s => .next s
  | n + 1, s =>
    match step s with
    | .next t    => runFor n t
    | .fault f   => .fault f
    | .refused r => .refused r

/-! ## Event lists -/

/-- The four events of one CS window whose write succeeds (rules R137, R138). -/
def windowEvents (dc : Level) (bytes : List Byte) : List Event :=
  [.drive .dc dc, .drive .cs .low, .spiWrite bytes .ok, .drive .cs .high]

/-- The three events of a CS window whose write fails (rules R137, R212). -/
def failedWindowEvents (dc : Level) (bytes : List Byte) : List Event :=
  [.drive .dc dc, .drive .cs .low, .spiWrite bytes .error]

/-- The events of `SendCommand(opcode, payload)` when every write succeeds (rule R137). -/
def commandEvents (opcode : Byte) (payload : List Byte) : List Event :=
  windowEvents .low [opcode] ++ (if payload = [] then [] else windowEvents .high payload)

/-- The bytes of a command frame on the wire, each with its DC level (rule R85). -/
def commandWire (opcode : Byte) (payload : List Byte) : List (Level × Byte) :=
  (.low, opcode) :: payload.map (fun b => (.high, b))

/-- The entries of a command frame in its script (rules R137, R152). -/
def commandLength (payload : List Byte) : Nat := if payload = [] then 4 else 8

/-- The events of `n` turns of a busy-wait that sample `low` (rule R139). -/
def lowTurns (n : Nat) : List Event := (List.replicate n [Event.sample .low, Event.delay 1]).flatten

/-- The events of a busy-wait that samples `low` `n` times and then `high` (rule R139). -/
def waitEvents (n : Nat) : List Event := lowTurns n ++ [.sample .high]

/-- The environment's answers that make such a wait. -/
def waitAnswers (n : Nat) : List Level := List.replicate n .low ++ [.high]

/-- The four events of `ResetPulse` (rule R140). -/
def pulseEvents : List Event := [.drive .rst .low, .delay 10, .drive .rst .high, .delay 10]

/-- The events of the fourteen configuration commands (rules R150, R155 to R168). -/
def configEvents : List Event :=
  (List.finRange 14).flatMap (fun k => commandEvents Config.CFG_OPS[k] (Config.cfgPayload k))

/-- The trace of a successful INIT whose three busy-waits see `a`, `b` and `c` samples `low` (rule R150). -/
def initEvents (a b c : Nat) : List Event :=
  pulseEvents ++ waitEvents a ++ commandEvents 0x01 [] ++ waitEvents b ++ configEvents ++ commandEvents 0x04 []
    ++ waitEvents c

/-- How many of the fourteen payloads are not empty (rule R152). -/
def payloadCount : Nat := ((List.finRange 14).filter (fun k => Config.cfgPayload k ≠ [])).length

/-- The opcode sequence of a trace: the bytes written while DC was last driven low (rule R16). DESIGN CHOICE: the bytes
of a `SpiWrite` answered `error` are left out, though a prefix of them may have reached the wire; the rule does not say
whether they were written (assumption log 20). -/
def opcodeSequence : Level → List Event → List Byte
  | _, [] => []
  | _, .drive .dc v :: es => opcodeSequence v es
  | d, .drive .cs _ :: es => opcodeSequence d es
  | d, .drive .rst _ :: es => opcodeSequence d es
  | .low, .spiWrite bytes .ok :: es => bytes ++ opcodeSequence .low es
  | d, .spiWrite _ _ :: es => opcodeSequence d es
  | d, .sample _ :: es => opcodeSequence d es
  | d, .delay _ :: es => opcodeSequence d es

/-- The bytes among those on the wire that a listener takes as opcodes, and those it takes as data (rule R85). -/
def bytesAt (dc : Level) (wire : List (Level × Byte)) : List Byte :=
  (wire.filter (fun c => c.1 = dc)).map Prod.snd

/-! ## States after a command -/

/-- The environment answers `ok` to every write of a command (rule R137). -/
def WritesOk (payload : List Byte) (s : State) : Prop :=
  nextSpi s = .ok ∧ (payload ≠ [] → nextSpi (dropSpi s) = .ok)

/-- The state after a command all of whose writes succeed (rules R131, R137): its events, its bytes, CS high, DC by the
last phase, one answer of the environment used a write, `upc` past its entries. -/
def sentCommand (opcode : Byte) (payload : List Byte) (s : State) : State :=
  { (if payload = [] then dropSpi s else dropSpi (dropSpi s)) with
    trace := s.trace ++ commandEvents opcode payload
    wire  := s.wire ++ commandWire opcode payload
    cs    := .high
    dc    := if payload = [] then .low else .high
    work  := { s.work with upc := s.work.upc + BitVec.ofNat 8 (commandLength payload) } }

/-- The phase in which a TransferError leaves the operation that holds a position (rule R213). -/
def faultPhase (site : Site) (phase : Phase) : Phase :=
  match site with
  | .init _  => .uninitialized
  | .update  => phase
  | .display => phase

/-- `t` is the host's view after a TransferError of the frame at a position, in a state that was `s` when the frame
began: `events` ended in the failing write, `delivered` reached the wire, DC as last driven (rules R212, R213). -/
def FaultedFrom (site : Site) (events : List Event) (delivered : List (Level × Byte)) (dc : Level) (s t : State) :
    Prop :=
  t.trace = s.trace ++ events ∧ t.wire = s.wire ++ delivered ∧ t.cs = .low ∧ t.dc = dc ∧ t.rst = s.rst ∧
    t.planes = s.planes ∧ t.res = 1 ∧ t.phase = faultPhase site s.phase ∧ t.seq = .idle ∧ t.requests = s.requests ∧
    t.busyIn = s.busyIn ∧ t.reply = none

/-! ## The table of the wire commands -/

/-- The instruction of table entry `k` (rules R155 to R168). -/
def configInstr (k : Fin 14) : Instr :=
  (#v[.wCfg4d, .wCfg00, .wCfg01, .wCfg03, .wCfg06, .wCfg50, .wCfg60, .wCfg61, .wCfgE7, .wCfgE3, .wCfgB4, .wCfgB5,
      .wCfgE9, .wCfg30] : Vector Instr 14)[k]

/-- The position of table entry `k` in INIT (rule R90). -/
def configSite (k : Fin 14) : Site := .init ⟨k.val + 1, by omega⟩

/-- The position after table entry `k`: the next entry, and after the last one the power-on command (rule R150). -/
def afterConfigSite (k : Fin 14) : Site := .init ⟨k.val + 2, by omega⟩

/-- The phase after table entry `k`: `Configured` after the last one (rule R151). -/
def afterConfigPhase (k : Fin 14) (p : Phase) : Phase := if k = 13 then .configured else p

/-- The instruction the scripts hold at a position (rule R90). -/
def siteInstr : Site → Instr
  | .init n  =>
    (#v[.wSwreset, .wCfg4d, .wCfg00, .wCfg01, .wCfg03, .wCfg06, .wCfg50, .wCfg60, .wCfg61, .wCfgE7, .wCfgE3, .wCfgB4,
        .wCfgB5, .wCfgE9, .wCfg30, .wPon] : Vector Instr 16)[n]
  | .update  => .wDtm
  | .display => .wDrf

/-! ## The frame in closed form (rule R185) -/

/-- The code in slot `i` of frame byte `n`. -/
def frameSlot (pl : Planes) (n i : Nat) : BitVec 2 :=
  match pixelAt (n / 32 : Nat) (121 - (4 * (n % 32) + i : Nat)) with
  | some p => pixelCode pl p
  | none   => Config.PAD_CODE

/-- Frame byte `n`: four codes, slot 0 in the most significant bits (rules R84, R185). -/
def frameByte (pl : Planes) (n : Nat) : Byte :=
  frameSlot pl n 0 ++ frameSlot pl n 1 ++ frameSlot pl n 2 ++ frameSlot pl n 3

/-- The 8000 frame bytes (rules R52, R185). -/
def frameBytes (pl : Planes) : List Byte := (List.range 8000).map (frameByte pl)

/-! ## Colours in the planes -/

/-- The plane bits a colour leaves at its position, `(bw, red, yellow)` (rule R114). -/
def colorBits : Color → Bool × Bool × Bool
  | .black  => (false, true, true)
  | .white  => (true, true, true)
  | .yellow => (true, true, false)
  | .red    => (true, false, true)

/-- The three plane bits of a bit position, `(bw, red, yellow)` (rule R22). -/
def bitsAt (pl : Planes) (idx : Fin 3813) (bit : Fin 8) : Bool × Bool × Bool :=
  (planeBitAt pl .bw idx bit, planeBitAt pl .red idx bit, planeBitAt pl .yellow idx bit)

/-- One element of a list of draws: the draw at its coordinates, nothing where they are out of bounds (rule R115). -/
def drawnAt (pl : Planes) (d : Int × Int × Color) : Planes :=
  match pixelAt d.1 d.2.1 with
  | some p => drawPlanes (planeIdx p) (planeBit p) d.2.2.code pl
  | none   => pl

/-- Two pixels the addressing rule gives the same bit position (rule R57). -/
def SharesBit (p q : Pixel) : Prop := planeIdx p = planeIdx q ∧ planeBit p = planeBit q

/-- A bit position no pixel uses (rule R58). -/
def Unused (idx : Fin 3813) (bit : Fin 8) : Prop := ∀ p : Pixel, ¬(planeIdx p = idx ∧ planeBit p = bit)

/-! ## What an operation leaves alone -/

/-- The three latches are unchanged. -/
def SameLines (s t : State) : Prop := t.cs = s.cs ∧ t.dc = s.dc ∧ t.rst = s.rst

/-- Nothing passed the ports: no event, no byte on the wire, no answer of the environment used. -/
def SamePorts (s t : State) : Prop :=
  t.trace = s.trace ∧ t.wire = s.wire ∧ t.busyIn = s.busyIn ∧ t.spiIn = s.spiIn

/-- Every byte of every plane reads as before. -/
def SamePlanes (s t : State) : Prop := ∀ p idx, planeRead t.planes p idx = planeRead s.planes p idx

/-! ## Invariants -/

/-- The planes are in canonical form. -/
def PlanesCanonical (s : State) : Prop := s.planes.wf

/-- At every bit position at most one plane holds 0 (rule R124). -/
def ColoursExclusive (s : State) : Prop :=
  ∀ idx bit, bitsAt s.planes idx bit ∈ [colorBits .black, colorBits .white, colorBits .yellow, colorBits .red]

/-- The bit positions no pixel uses hold 1 in all planes (rule R58). -/
def UnusedBitsSet (s : State) : Prop := ∀ idx bit, Unused idx bit → bitsAt s.planes idx bit = (true, true, true)

/-- The phase in which a busy-wait runs (rule R151). -/
def waitPhase : WaitPoint → Phase
  | .afterReset   => .resetPulsed
  | .afterSwReset => .softwareResetSent
  | .afterPowerOn => .poweredOn
  | .afterRefresh => .ready

/-- The operation a busy-wait belongs to (rule R67). -/
def waitOp : WaitPoint → BitVec 3
  | .afterReset   => 3
  | .afterSwReset => 3
  | .afterPowerOn => 3
  | .afterRefresh => 5

/-- The script index of a busy-wait (rules R25, R152). -/
def waitIndex : WaitPoint → Nat
  | .afterReset   => 4
  | .afterSwReset => 9
  | .afterPowerOn => 14 + configsLength 14
  | .afterRefresh => 4

/-- The sequencer is where its phase, operation and micro-step counter say (rules R24, R25, R151): between operations
the phase is one of the two the host can observe, and inside a script the three agree with the position. -/
def ControlAgrees (s : State) : Prop :=
  match s.seq with
  | .idle       => s.phase = .uninitialized ∨ s.phase = .ready
  | .wait w     => s.phase = waitPhase w ∧ s.work.op = waitOp w ∧ s.work.upc = BitVec.ofNat 8 (waitIndex w)
  | .frame site =>
    s.phase = sitePhase site ∧ s.work.op = siteOp site ∧ s.work.upc = BitVec.ofNat 8 (siteIndex site)

/-- RST is high from the reset pulse on: while a script runs, and once the phase is `Ready` (rule R140). -/
def ResetLineReleased (s : State) : Prop := s.seq ≠ .idle ∨ s.phase = .ready → s.rst = .high

end Sys2Proof.Machine
end

