-- ==== Sys2Proof/Certificates/Slice0/Obligations.lean ====
section
/-! DEFINITION. The statements for the provers, each with the rule of spec/ it comes from. -/

open Sys2Proof Sys2Proof.Machine

/-! ## Encoding and decoding -/

/-- Words written out field by field by rule R80 decode to the operation of rule R81: DRAW_PIXEL 249, 121, Yellow;
DRAW_PIXEL -1, 0, White; a CLEAR whose other fields are not 0; INIT; and two opcode bytes at their positions. -/
def Obligations.WrittenOutWordsDecode : Prop :=
  decode (.host 0x06000000F900000079) = .ok (.drawPixel 249 121 .yellow) ∧
  decode (.host 0x05FFFFFFFF00000000) = .ok (.drawPixel (-1) 0 .white) ∧
  decode (.host 0x0312345678FFFFFFFF) = .ok .clear ∧
  decode (.host 0x0C0000000000000000) = .ok .init ∧
  decode (.wire (.init 0) 0x01) = .ok .wSwreset ∧
  decode (.wire (.init 3) 0x01) = .ok .wCfg01

/-- Rules R81, R87, R91: the operation a host word of four given fields selects, with its operands; `op` 6 and 7 select
none; a field an operation does not read changes nothing. -/
def Obligations.HostWordSelectsOperation : Prop :=
  ∀ (op : BitVec 3) (c : BitVec 2) (x y : BitVec 32),
    decode (.host (hostWord op c x y)) =
      if op = 0 then .ok .clear
      else if op = 1 then .ok (.drawPixel x.toInt y.toInt (Color.ofCode c))
      else if op = 2 then .ok .getSize
      else if op = 3 then .ok .init
      else if op = 4 then .ok .updateFrames
      else if op = 5 then .ok .displayFrame
      else .error (.reservedOp op)

/-- Decoding an encoded instruction gives it back, for every operand the host word can hold. -/
def Obligations.DecodeOfEncode : Prop := ∀ i : Instr, WellFormed i → decode (encode i) = .ok i

/-- Whatever decodes is an instruction the encodings can express, and its encoding is the code up to the fields it does
not read: exactly the code for DRAW_PIXEL and the wire commands, the same `op` for the others. -/
def Obligations.DecodedIsEncodable : Prop :=
  ∀ (c : Code) (i : Instr), decode c = .ok i →
    WellFormed i ∧
    (∀ site b, c = .wire site b → encode i = c) ∧
    (∀ w, c = .host w →
      (∀ x y k, i = .drawPixel x y k → encode i = c) ∧ ∃ v, encode i = .host v ∧ opField v = opField w)

/-- Rules R90, R93: at each of the eighteen positions exactly one opcode byte is an instruction, and it is the byte the
scripts hold there. -/
def Obligations.OneOpcodeAtEachPosition : Prop :=
  ∀ (site : Site) (b : Byte) (i : Instr),
    decode (.wire site b) = .ok i ↔ b = scriptOpcode site ∧ i = siteInstr site

/-! ## The step -/

/-- An idle block with a host word ready that decodes runs that instruction, the word taken from the host's list. -/
def Obligations.StepRunsHostInstruction : Prop :=
  ∀ (s : State) (w : HostWord) (rest : List HostWord) (i : Instr),
    s.seq = .idle → s.requests = w :: rest → decode (.host w) = .ok i → step s = exec i { s with requests := rest }

/-- A script that stands at a frame runs the wire command its opcode byte decodes to, and it always decodes. -/
def Obligations.StepRunsScriptInstruction : Prop :=
  ∀ (s : State) (site : Site), s.seq = .frame site →
    ∃ i, decode (.wire site (scriptOpcode site)) = .ok i ∧ step s = exec i s

/-- With nothing to run the step changes nothing; at a busy-wait it takes one turn of the wait. -/
def Obligations.StepIdlesOrPolls : Prop :=
  ∀ s : State,
    (s.seq = .idle → s.requests = [] → step s = .next s) ∧
    (∀ w, s.seq = .wait w → step s = .next (pollBusy w s))

/-- A step is refused exactly when the block is idle and the host's next word has `op` 6 or 7, or is INIT outside
`Uninitialized`, or UPDATE_FRAMES or DISPLAY_FRAME outside `Ready`. Rule R216 names `Ready` for INIT; that every phase
other than `Uninitialized` is meant is the model's reading (log 10). -/
def Obligations.RefusedExactlyWhenTheSpecRefuses : Prop :=
  ∀ (s : State) (r : Refusal), step s = .refused r ↔
    s.seq = .idle ∧ ∃ w rest, s.requests = w :: rest ∧
      ((r = .reservedOp (opField w) ∧ (opField w = 6 ∨ opField w = 7)) ∨
       (r = .wrongPhase s.phase ∧ opField w = 3 ∧ s.phase ≠ .uninitialized) ∨
       (r = .wrongPhase s.phase ∧ (opField w = 4 ∨ opField w = 5) ∧ s.phase ≠ .ready))

/-- Rules R62, R92, R93, R96: executed out of their place the instructions are refused: a wire command where the script
does not stand at its position, a host operation while another runs. -/
def Obligations.OutOfPlaceIsRefused : Prop :=
  ∀ s : State,
    (∀ site, s.seq ≠ .frame site → exec (siteInstr site) s = .refused .notAtItsPosition) ∧
    (s.seq ≠ .idle → ∀ w i, decode (.host w) = .ok i → exec i s = .refused .operationRunning)

/-! ## Reset -/

/-- Rules R37, R240: after reset every plane byte is 0xFF, the phase is `Uninitialized`, `res` is 0, the latches are at
`LINE_INIT`, the block is idle and the trace is empty. -/
def Obligations.ResetState : Prop :=
  (∀ p idx, planeRead State.reset.planes p idx = 0xFF) ∧ State.reset.phase = .uninitialized ∧ State.reset.res = 0 ∧
  State.reset.cs = Config.lineInit .cs ∧ State.reset.dc = Config.lineInit .dc ∧
  State.reset.rst = Config.lineInit .rst ∧ State.reset.seq = .idle ∧ State.reset.trace = []

/-- Every invariant stated below holds after reset. The canonical form of the planes is the model's choice (log 1). -/
def Obligations.ResetMeetsInvariants : Prop :=
  PlanesCanonical State.reset ∧ ColoursExclusive State.reset ∧ UnusedBitsSet State.reset ∧
  ControlAgrees State.reset ∧ ResetLineReleased State.reset

/-! ## The bitplane store -/

/-- Rule R110: CLEAR, in every phase, makes every plane byte 0xFF and `res` 0 and leaves the rest of the block and its
ports alone. -/
def Obligations.ClearSetsEveryByte : Prop :=
  (∀ w, opField w = 0 → decode (.host w) = .ok .clear) ∧
  ∀ s : State, s.seq = .idle →
    ∃ t, exec .clear s = .next t ∧ (∀ p idx, planeRead t.planes p idx = 0xFF) ∧ t.res = 0 ∧ t.phase = s.phase ∧
      SameLines s t ∧ SamePorts s t ∧ t.seq = .idle ∧ t.requests = s.requests ∧ t.reply = none

/-- Rules R112, R114: DRAW_PIXEL in bounds, in every phase, gives the bit position `((y*250 + x) div 8, 7 - x mod 8)`
the colour's bits in the three planes, changes no other plane bit, sets `res` to 0 and leaves the rest alone. -/
def Obligations.DrawInBoundsSetsOnePosition : Prop :=
  ∀ (s : State) (x y : Int) (c : Color), s.seq = .idle → PlanesCanonical s → InBounds x y →
    ∃ t, exec (.drawPixel x y c) s = .next t ∧
      (∃ (idx : Fin 3813) (bit : Fin 8), (idx.val : Int) = (y * 250 + x) / 8 ∧ (bit.val : Int) = 7 - x % 8 ∧
        bitsAt t.planes idx bit = colorBits c ∧
        (∀ j b, ¬(j = idx ∧ b = bit) → bitsAt t.planes j b = bitsAt s.planes j b) ∧
        (∀ p j, j ≠ idx → planeRead t.planes p j = planeRead s.planes p j)) ∧
      t.res = 0 ∧ t.phase = s.phase ∧ SameLines s t ∧ SamePorts s t ∧ t.seq = .idle ∧ t.requests = s.requests ∧
      t.reply = none

/-- Rules R113, R125, R214: DRAW_PIXEL out of bounds completes with `res` 0 and changes nothing, whatever the colour. -/
def Obligations.DrawOutOfBoundsIsDropped : Prop :=
  ∀ (s : State) (x y : Int) (c : Color), s.seq = .idle → WellFormed (.drawPixel x y c) →
    (x < 0 ∨ y < 0 ∨ 250 ≤ x ∨ 122 ≤ y) →
    ∃ t, exec (.drawPixel x y c) s = .next t ∧ t.planes = s.planes ∧ t.res = 0 ∧ t.phase = s.phase ∧
      SameLines s t ∧ SamePorts s t ∧ t.seq = .idle ∧ t.requests = s.requests ∧ t.reply = none

/-- Rules R30, R116: GET_SIZE, in every phase, returns `(250, 122)` and sets `res` to 0, and changes nothing else. -/
def Obligations.GetSizeReturnsTheCanvas : Prop :=
  (∀ w, opField w = 2 → decode (.host w) = .ok .getSize) ∧
  ∀ s : State, s.seq = .idle →
    ∃ t, exec .getSize s = .next t ∧ t.reply = some (250, 122) ∧ t.res = 0 ∧ t.planes = s.planes ∧
      t.phase = s.phase ∧ SameLines s t ∧ SamePorts s t ∧ t.seq = .idle ∧ t.requests = s.requests

/-- Rule R122 (P1): drawing a pixel twice with one colour gives the buffer of drawing it once. -/
def Obligations.DrawIsIdempotent : Prop :=
  ∀ (s : State) (x y : Int) (c : Color), s.seq = .idle → PlanesCanonical s → WellFormed (.drawPixel x y c) →
    ∃ t u, exec (.drawPixel x y c) s = .next t ∧ exec (.drawPixel x y c) t = .next u ∧ u.planes = t.planes

/-- Rule R123: the state after a second draw at a pixel is the state after that draw alone, the working registers and
the count of free values apart, which hold any value between operations; and White restores the background. -/
def Obligations.LastDrawWins : Prop :=
  ∀ (s : State) (x y : Int) (c d : Color), s.seq = .idle → PlanesCanonical s → WellFormed (.drawPixel x y c) →
    ∃ t u v, exec (.drawPixel x y c) s = .next t ∧ exec (.drawPixel x y d) t = .next u ∧
      exec (.drawPixel x y d) s = .next v ∧ u.planes = v.planes ∧ u.res = v.res ∧ u.phase = v.phase ∧
      SameLines v u ∧ SamePorts v u ∧ u.seq = v.seq ∧ u.requests = v.requests ∧ u.reply = v.reply ∧
      ∀ px, d = .white → pixelAt x y = some px → bitsAt u.planes (planeIdx px) (planeBit px) = (true, true, true)

/-- Rules R66, R115: the host words of a list of draws, one after another, give the planes of the draws in list order,
those out of bounds dropped; no event, the phase and the lines as they were.
How much one step does is the model's choice (log 3). -/
def Obligations.DrawListAppliesInOrder : Prop :=
  ∀ (l : List (Int × Int × Color)) (s : State) (rest : List HostWord),
    s.seq = .idle → (∀ d ∈ l, WellFormed (.drawPixel d.1 d.2.1 d.2.2)) →
    s.requests = l.map (fun d => hostWord 1 d.2.2.code (BitVec.ofInt 32 d.1) (BitVec.ofInt 32 d.2.1)) ++ rest →
    ∃ t, runFor l.length s = .next t ∧ t.planes = l.foldl drawnAt s.planes ∧ t.requests = rest ∧ t.seq = .idle ∧
      t.phase = s.phase ∧ SameLines s t ∧ SamePorts s t ∧ (l ≠ [] → t.res = 0)

/-- Rule R127 (P5): from a clear buffer, Black at `(0, 0)` makes `bw[0]` 0x7F and leaves `red[0]` and `yellow[0]` 0xFF. -/
def Obligations.BlackAtOriginClearsBitSeven : Prop :=
  ∀ s : State, s.seq = .idle → s.planes = clearPlanes →
    ∃ t, exec (.drawPixel 0 0 .black) s = .next t ∧ planeRead t.planes .bw 0 = 0x7F ∧
      planeRead t.planes .red 0 = 0xFF ∧ planeRead t.planes .yellow 0 = 0xFF

/-- Rule R126 (P4): after CLEAR every plane byte is 0xFF and every pixel reads White. -/
def Obligations.ClearThenEveryPixelIsWhite : Prop :=
  ∀ s : State, s.seq = .idle →
    ∃ t, exec .clear s = .next t ∧ (∀ p idx, planeRead t.planes p idx = 0xFF) ∧
      ∀ px : Pixel, pixelCode t.planes px = Config.CODE_WHITE

/-- Rule R57: two different pixels have one bit position exactly when they are `(248, y)` and `(0, y+1)`, or `(249, y)`
and `(1, y+1)`, with `y` at most 120 and `y mod 4` not 3. -/
def Obligations.PixelsThatShareABit : Prop :=
  ∀ p q : Pixel, p ≠ q →
    (SharesBit p q ↔
      (∃ y : Nat, y ≤ 120 ∧ y % 4 ≠ 3 ∧
        ((p.y.val = y ∧ q.y.val = y + 1 ∧ ((p.x.val = 248 ∧ q.x.val = 0) ∨ (p.x.val = 249 ∧ q.x.val = 1))) ∨
         (q.y.val = y ∧ p.y.val = y + 1 ∧ ((q.x.val = 248 ∧ p.x.val = 0) ∨ (q.x.val = 249 ∧ p.x.val = 1))))))

/-- Rule R58: the bit positions no pixel uses are exactly those the rule lists. -/
def Obligations.UnusedBitPositions : Prop :=
  ∀ (idx : Fin 3813) (bit : Fin 8), Unused idx bit ↔
    (∃ y : Nat, y ≤ 120 ∧ idx.val = (250 * y + 248) / 8 ∧
      ((y % 4 = 0 ∧ (bit = 1 ∨ bit = 0)) ∨ (y % 4 = 1 ∧ (bit = 3 ∨ bit = 2)) ∨ (y % 4 = 2 ∧ (bit = 5 ∨ bit = 4)))) ∨
    (idx = 3812 ∧ (bit = 5 ∨ bit = 4 ∨ bit = 3 ∨ bit = 2))

/-- Rule R128: after a draw of a colour every pixel that shares the bit position reads that colour, and every other
pixel reads as before; and a draw at any pixel that shares the position gives the same planes. -/
def Obligations.DrawColoursTheSharingPixels : Prop :=
  ∀ (s : State) (p : Pixel) (c : Color), s.seq = .idle → PlanesCanonical s →
    ∃ t, exec (.drawPixel p.x.val p.y.val c) s = .next t ∧
      ∀ q : Pixel, (SharesBit p q → pixelCode t.planes q = c.code) ∧
        (¬SharesBit p q → pixelCode t.planes q = pixelCode s.planes q) ∧
        (SharesBit p q → ∃ u, exec (.drawPixel q.x.val q.y.val c) s = .next u ∧ u.planes = t.planes)

/-! ## The pixel encoder and the transposer -/

/-- Rules R82, R181, R182: the code of a pixel for each of the eight combinations of its plane bits, `bw`, `red`,
`yellow`, read at `((y*250 + x) div 8, 7 - x mod 8)`. -/
def Obligations.PixelCodePriority : Prop :=
  ∀ (pl : Planes) (px : Pixel) (idx : Fin 3813) (bit : Fin 8),
    idx.val = (px.y.val * 250 + px.x.val) / 8 → bit.val = 7 - px.x.val % 8 →
    pixelCode pl px =
      match bitsAt pl idx bit with
      | (true, true, true)    => 1
      | (false, true, true)   => 0
      | (true, false, true)   => 3
      | (true, true, false)   => 2
      | (false, false, true)  => 3
      | (false, true, false)  => 2
      | (true, false, false)  => 3
      | (false, false, false) => 3

/-- Rules R52, R183, R185: the transposer's loops produce the closed-form frame, whatever the working registers held. -/
def Obligations.TransposerLoopsGiveTheFrame : Prop :=
  ∀ (pl : Planes) (w : WorkRegs), (transpose pl w).2 = frameBytes pl

/-- Rules R63, R185: in the frame the transposer's loops produce, every pixel's code stands in its one slot and every
slot of a column from 122 on holds code 2; there are 8000 bytes. -/
def Obligations.FrameSlotsHoldPixelCodes : Prop :=
  ∀ (pl : Planes) (w : WorkRegs),
    (transpose pl w).2.length = 8000 ∧
    (∀ px : Pixel, wireByte px < 8000 ∧
      slotCode ((transpose pl w).2.getD (wireByte px) 0) (wireSlot px) = pixelCode pl px) ∧
    (∀ ly col : Nat, ly < 250 → 122 ≤ col → col < 128 →
      slotCode ((transpose pl w).2.getD (32 * ly + col / 4) 0) (col % 4) = 2)

/-- Rule R63: each slot of the frame belongs to one column, and a column below 122 to exactly one pixel. -/
def Obligations.EachValidSlotHasOnePixel : Prop :=
  ∀ n i : Nat, n < 8000 → i < 4 →
    (4 * (n % 32) + i ≤ 121 → ∃ px : Pixel, (wireByte px = n ∧ wireSlot px = i) ∧
      px.x.val = n / 32 ∧ px.y.val = 121 - (4 * (n % 32) + i) ∧
      ∀ qx : Pixel, wireByte qx = n ∧ wireSlot qx = i → qx = px) ∧
    (122 ≤ 4 * (n % 32) + i → ∀ px : Pixel, ¬(wireByte px = n ∧ wireSlot px = i))

/-- Rule R191: the frame of a clear buffer is, for every driver row, thirty bytes 0x55, then 0x5A, then 0xAA. -/
def Obligations.ClearBufferFrame : Prop :=
  ∀ w : WorkRegs,
    (transpose clearPlanes w).2 =
      (List.range 250).flatMap (fun _ => List.replicate 30 (0x55 : Byte) ++ [0x5A, 0xAA]) ∧
    (transpose clearPlanes w).2.count 0x55 = 7500 ∧ (transpose clearPlanes w).2.count 0x5A = 250 ∧
    (transpose clearPlanes w).2.count 0xAA = 250

/-- Rule R192 (P7): in every driver row, for every buffer, byte 30 ends in `1010` and byte 31 is 0xAA. -/
def Obligations.PaddingIsYellow : Prop :=
  ∀ (pl : Planes) (w : WorkRegs) (ly : Nat), ly < 250 →
    ((transpose pl w).2.getD (32 * ly + 30) 0).extractLsb' 0 4 = 0b1010#4 ∧
    (transpose pl w).2.getD (32 * ly + 31) 0 = 0xAA

/-- Rule R190 (P6): with a single Black pixel at `(5, 10)`, frame byte 187 is 0x54 and every other byte is that of the
clear buffer. -/
def Obligations.SingleBlackPixelFrame : Prop :=
  ∀ s : State, s.seq = .idle → s.planes = clearPlanes →
    ∃ t, exec (.drawPixel 5 10 .black) s = .next t ∧
      ∀ w : WorkRegs, (transpose t.planes w).2 = (transpose clearPlanes w).2.set 187 0x54

/-- Rule R193: pixels that share their plane bits have the same code in their slots of the frame. -/
def Obligations.SharingPixelsLookAlikeOnTheWire : Prop :=
  ∀ (pl : Planes) (w : WorkRegs) (p q : Pixel), SharesBit p q →
    slotCode ((transpose pl w).2.getD (wireByte p) 0) (wireSlot p) =
      slotCode ((transpose pl w).2.getD (wireByte q) 0) (wireSlot q)

/-! ## The command protocol -/

/-- Rule R137: SendCommand with every write succeeding, with the first failing, with the second failing. -/
def Obligations.SendCommandEvents : Prop :=
  ∀ (s : State) (op : Byte) (payload : List Byte),
    (WritesOk payload s → sendCommand op payload s = .ok (sentCommand op payload s)) ∧
    (∀ n, nextSpi s = .error n → ∃ t, sendCommand op payload s = .error t ∧
      t.trace = s.trace ++ failedWindowEvents .low [op] ∧ t.dc = .low ∧ t.cs = .low ∧
      t.wire = s.wire ++ ([op].take n).map (fun b => (.low, b))) ∧
    (∀ n, payload ≠ [] → nextSpi s = .ok → nextSpi (dropSpi s) = .error n →
      ∃ t, sendCommand op payload s = .error t ∧
        t.trace = s.trace ++ windowEvents .low [op] ++ failedWindowEvents .high payload ∧ t.dc = .high ∧ t.cs = .low ∧
        t.wire = s.wire ++ (.low, op) :: (payload.take n).map (fun b => (.high, b)))

/-- Rules R154, R169, R201: the three commands with no payload complete when their write succeeds: one frame, then the
busy-wait that follows in the phase of rule R151. -/
def Obligations.OpcodeOnlyCommandsComplete : Prop :=
  ∀ s : State, nextSpi s = .ok →
    (s.seq = .frame (.init 0) → exec .wSwreset s =
      .next { sentCommand 0x01 [] s with phase := .softwareResetSent, seq := .wait .afterSwReset }) ∧
    (s.seq = .frame (.init 15) → exec .wPon s =
      .next { sentCommand 0x04 [] s with phase := .poweredOn, seq := .wait .afterPowerOn }) ∧
    (s.seq = .frame .display → exec .wDrf s = .next { sentCommand 0x12 [] s with seq := .wait .afterRefresh })

/-- Rules R150, R151, R155 to R168: every configuration command completes when its writes succeed: `k` is loaded, the
opcode `CFG_OPS[k]` and the payload `CFG_PAYLOAD[k]` are sent, and the script goes on with the next entry, after the
last one with the power-on command in phase `Configured`. -/
def Obligations.ConfigCommandsComplete : Prop :=
  ∀ (k : Fin 14) (s : State), s.seq = .frame (configSite k) → WritesOk (Config.cfgPayload k) s →
    exec (configInstr k) s =
      .next { sentCommand Config.CFG_OPS[k] (Config.cfgPayload k) (loadEntry k s) with
        phase := afterConfigPhase k s.phase
        seq   := .frame (afterConfigSite k) }

/-- Rules R180, R186: W_DTM completes when both writes succeed: opcode 0x10, then the 8000 frame bytes in one window,
`res` 0, the operation ended; planes, phase, RST and the busy answers untouched. -/
def Obligations.FrameCommandCompletes : Prop :=
  ∀ s : State, s.seq = .frame .update → nextSpi s = .ok → nextSpi (dropSpi s) = .ok →
    ∃ t, exec .wDtm s = .next t ∧ t.trace = s.trace ++ commandEvents 0x10 (frameBytes s.planes) ∧
      t.wire = s.wire ++ commandWire 0x10 (frameBytes s.planes) ∧ t.cs = .high ∧ t.dc = .high ∧ t.rst = s.rst ∧
      t.planes = s.planes ∧ t.phase = s.phase ∧ t.res = 0 ∧ t.seq = .idle ∧ t.requests = s.requests ∧
      t.busyIn = s.busyIn ∧ t.spiIn = s.spiIn.drop 2 ∧ t.reply = none

/-- Rules R211 to R213: when the opcode write of any of the eighteen commands fails, TransferError is taken: the failing
write is the last event, CS stays low, DC low, RST and planes as they were, `res` 1, the phase by rule R213. -/
def Obligations.OpcodeWriteFailureFaults : Prop :=
  ∀ (site : Site) (s : State) (n : Nat), s.seq = .frame site → nextSpi s = .error n →
    ∃ t, exec (siteInstr site) s = .next t ∧
      FaultedFrom site (failedWindowEvents .low [scriptOpcode site])
        (([scriptOpcode site].take n).map (fun b => (.low, b))) .low s t

/-- Rules R171, R211 to R213: when the payload write of a configuration command fails, TransferError is taken with DC
high and `Uninitialized`; a command whose payload is empty has no such write and completes. -/
def Obligations.PayloadWriteFailureFaults : Prop :=
  ∀ (k : Fin 14) (s : State) (n : Nat), s.seq = .frame (configSite k) → nextSpi s = .ok →
    nextSpi (dropSpi s) = .error n →
    ∃ t, exec (configInstr k) s = .next t ∧
      if Config.cfgPayload k = [] then
        t.trace = s.trace ++ commandEvents Config.CFG_OPS[k] [] ∧ t.seq = .frame (afterConfigSite k)
      else
        FaultedFrom (configSite k)
          (windowEvents .low [Config.CFG_OPS[k]] ++ failedWindowEvents .high (Config.cfgPayload k))
          ((.low, Config.CFG_OPS[k]) :: ((Config.cfgPayload k).take n).map (fun b => (.high, b))) .high s t

/-- Rule R187: when the data write of UPDATE_FRAMES fails, TransferError is taken with DC high and the phase unchanged,
a prefix of the frame having reached the wire. -/
def Obligations.FrameWriteFailureFaults : Prop :=
  ∀ (s : State) (n : Nat), s.seq = .frame .update → nextSpi s = .ok → nextSpi (dropSpi s) = .error n →
    ∃ t, exec .wDtm s = .next t ∧
      FaultedFrom .update (windowEvents .low [0x10] ++ failedWindowEvents .high (frameBytes s.planes))
        ((.low, 0x10) :: ((frameBytes s.planes).take n).map (fun b => (.high, b))) .high s t

/-! ## The busy-wait -/

/-- Rule R139: while the environment answers `low` each turn of a busy-wait causes a sample and a 1 ms delay and changes
nothing else; after `n` of them a `high` causes one sample and the wait exits.
How much one step does is the model's choice (log 3); the sample before the delay is decision D8 (log 14). -/
def Obligations.BusyWaitEndsAtFirstHigh : Prop :=
  ∀ (w : WaitPoint) (s : State) (n : Nat) (q : List Level), s.seq = .wait w →
    (s.busyIn = List.replicate n .low ++ q →
      runFor n s = .next { s with trace := s.trace ++ lowTurns n, busyIn := q }) ∧
    (s.busyIn = waitAnswers n ++ q →
      runFor (n + 1) s = .next (afterWait w
        { s with
          trace  := s.trace ++ waitEvents n
          busyIn := q
          work   := { s.work with upc := s.work.upc + 1 } }))

/-- Rules R202, R215: as long as every answer is `low`, whether from the queue or free, the wait does not end: after any
number of turns the block stands at it, no fault raised, `res` not written, the trace grown by the turns alone.
How much one step does is the model's choice (log 3). -/
def Obligations.StuckBusyLineHangs : Prop :=
  ∀ (w : WaitPoint) (s : State) (n : Nat), s.seq = .wait w →
    (∀ m u, m < n → runFor m s = .next u → nextBusy u = .low) →
    ∃ t, runFor n s = .next t ∧ t.seq = .wait w ∧ t.res = s.res ∧ t.phase = s.phase ∧ t.planes = s.planes ∧
      t.trace = s.trace ++ lowTurns n ∧ t.wire = s.wire ∧ t.spiIn = s.spiIn ∧ t.requests = s.requests ∧
      t.work = s.work ∧ SameLines s t

/-! ## The driver operations -/

/-- Rules R140, R150: INIT in `Uninitialized` begins with the reset pulse and stands at its first busy-wait in phase
`ResetPulsed`; the planes, CS, DC and the environment's answers are untouched. -/
def Obligations.InitBeginsWithResetPulse : Prop :=
  ∀ s : State, s.seq = .idle → s.phase = .uninitialized →
    exec .init s = .next { s with
      phase := .resetPulsed
      seq   := .wait .afterReset
      rst   := .high
      trace := s.trace ++ pulseEvents
      work  := { s.work with op := 3, upc := 4 } }

/-- Rules R150, R170: INIT with every write answered `ok` and its three busy-waits seeing `a`, `b` and `c` samples `low`
runs to `Ready` with `res` 0 in `19 + a + b + c` steps after its first, with exactly the events of the script; planes
and the host's list are untouched.
How much one step does is the model's choice (log 3). -/
def Obligations.InitRunsToReady : Prop :=
  ∀ (s : State) (a b c : Nat) (q : List Level) (r : List SpiAnswer),
    s.seq = .idle → s.phase = .uninitialized →
    s.busyIn = waitAnswers a ++ waitAnswers b ++ waitAnswers c ++ q → s.spiIn = List.replicate 30 .ok ++ r →
    ∃ t u, exec .init s = .next t ∧ runFor (19 + a + b + c) t = .next u ∧
      u.phase = .ready ∧ u.res = 0 ∧ u.seq = .idle ∧ u.trace = s.trace ++ initEvents a b c ∧
      u.cs = .high ∧ u.dc = .low ∧ u.rst = .high ∧ u.planes = s.planes ∧ u.requests = s.requests ∧
      u.busyIn = q ∧ u.spiIn = List.replicate (14 - payloadCount) .ok ++ r ∧ u.reply = none

/-- Rule R170: in every run of INIT that ends in `Ready`, whatever the environment answers, the bytes sent with DC low
are the sixteen opcodes in order and the bytes sent with DC high are the payloads in order. -/
def Obligations.SuccessfulInitSendsTheTable : Prop :=
  ∀ (s t u : State) (n : Nat), s.requests = [] → exec .init s = .next t → runFor n t = .next u →
    u.seq = .idle → u.phase = .ready →
    ∃ sent, u.wire = s.wire ++ sent ∧
      bytesAt .low sent =
        [0x01, 0x4D, 0x00, 0x01, 0x03, 0x06, 0x50, 0x60, 0x61, 0xE7, 0xE3, 0xB4, 0xB5, 0xE9, 0x30, 0x04] ∧
      bytesAt .high sent = (List.finRange 14).flatMap Config.cfgPayload

/-- Rules R16, R170: in every run of INIT that ends in `Ready`, whatever the environment answers, the opcode sequence of
the events the run caused is the sixteen opcodes in order, whatever level DC was driven to before. -/
def Obligations.InitTraceOpcodeSequence : Prop :=
  ∀ (s t u : State) (n : Nat), s.requests = [] → exec .init s = .next t → runFor n t = .next u →
    u.seq = .idle → u.phase = .ready →
    ∃ events, u.trace = s.trace ++ events ∧ ∀ dc, opcodeSequence dc events =
      [0x01, 0x4D, 0x00, 0x01, 0x03, 0x06, 0x50, 0x60, 0x61, 0xE7, 0xE3, 0xB4, 0xB5, 0xE9, 0x30, 0x04]

/-- Rule R152: INIT with every write answered `ok` and its waits seeing `a`, `b` and `c` samples `low` stands, after
`18 + a + b` steps, at its last busy-wait with `upc` at `70 + 4*m`, `m` the number of payloads not empty: the index of
the last of the script's `71 + 4*m` entries, in 8 bits without wrap. At its end it has caused `68 + 4*m` events and the
`2*j + 1` of each wait. The number `m` is at most 14, and 14 exactly when all payloads are present.
How much one step does is the model's choice (log 3). -/
def Obligations.InitScriptLength : Prop :=
  payloadCount ≤ 14 ∧ (payloadCount = 14 ↔ ∀ k, Config.cfgPayload k ≠ []) ∧
  ∀ (s : State) (a b c : Nat) (q : List Level) (r : List SpiAnswer),
    s.seq = .idle → s.phase = .uninitialized →
    s.busyIn = waitAnswers a ++ waitAnswers b ++ waitAnswers c ++ q → s.spiIn = List.replicate 30 .ok ++ r →
    ∃ t v u, exec .init s = .next t ∧
      runFor (18 + a + b) t = .next v ∧ v.seq = .wait .afterPowerOn ∧
      v.work.upc.toNat = 70 + 4 * payloadCount ∧
      runFor (19 + a + b + c) t = .next u ∧ u.phase = .ready ∧ u.seq = .idle ∧
      u.trace.length = s.trace.length + (68 + 4 * payloadCount) + (2 * a + 1) + (2 * b + 1) + (2 * c + 1)

/-- Rule R180: UPDATE_FRAMES in `Ready` with both writes answered `ok` runs to its end in one step after its first,
with the eight events of the frame command, `res` 0 and everything else as it was.
How much one step does is the model's choice (log 3). -/
def Obligations.UpdateFramesRuns : Prop :=
  ∀ s : State, s.seq = .idle → s.phase = .ready → nextSpi s = .ok → nextSpi (dropSpi s) = .ok →
    ∃ t u, exec .updateFrames s = .next t ∧ step t = .next u ∧
      u.trace = s.trace ++ commandEvents 0x10 (frameBytes s.planes) ∧
      u.wire = s.wire ++ commandWire 0x10 (frameBytes s.planes) ∧ u.phase = .ready ∧ u.res = 0 ∧ u.seq = .idle ∧
      u.cs = .high ∧ u.dc = .high ∧ u.rst = s.rst ∧ u.planes = s.planes ∧ u.requests = s.requests ∧
      u.busyIn = s.busyIn ∧ u.spiIn = s.spiIn.drop 2 ∧ u.reply = none

/-- Rule R200: DISPLAY_FRAME in `Ready` with its write answered `ok` and a wait of `n` samples `low` runs to its end in
`n + 2` steps after its first, with `5 + 2*n` events, `res` 0 and everything else as it was.
How much one step does is the model's choice (log 3). -/
def Obligations.DisplayFrameRuns : Prop :=
  ∀ (s : State) (n : Nat) (q : List Level) (r : List SpiAnswer),
    s.seq = .idle → s.phase = .ready → s.busyIn = waitAnswers n ++ q → s.spiIn = .ok :: r →
    ∃ t u, exec .displayFrame s = .next t ∧ runFor (n + 2) t = .next u ∧
      u.trace = s.trace ++ commandEvents 0x12 [] ++ waitEvents n ∧ u.wire = s.wire ++ commandWire 0x12 [] ∧
      u.phase = .ready ∧ u.res = 0 ∧ u.seq = .idle ∧ u.cs = .high ∧ u.dc = .low ∧ u.rst = s.rst ∧
      u.planes = s.planes ∧ u.requests = s.requests ∧ u.busyIn = q ∧ u.spiIn = r ∧ u.reply = none

/-- Rule R203: DISPLAY_FRAME whose write fails ends after three events with `res` 1 and no busy-wait, in `Ready`.
How much one step does is the model's choice (log 3). -/
def Obligations.DisplayFrameFails : Prop :=
  ∀ (s : State) (n : Nat), s.seq = .idle → s.phase = .ready → nextSpi s = .error n →
    ∃ t u, exec .displayFrame s = .next t ∧ step t = .next u ∧
      u.trace = s.trace ++ [.drive .dc .low, .drive .cs .low, .spiWrite [0x12] .error] ∧ u.res = 1 ∧
      u.phase = .ready ∧ u.seq = .idle ∧ u.cs = .low ∧ u.dc = .low ∧ u.rst = s.rst ∧ u.planes = s.planes ∧
      u.requests = s.requests ∧ u.busyIn = s.busyIn ∧ u.wire = s.wire ++ ([0x12].take n).map (fun b => (.low, b))

/-! ## Rules of the whole machine -/

/-- The planes stay in canonical form through every step. -/
def Obligations.StepKeepsPlanesCanonical : Prop :=
  ∀ s t : State, PlanesCanonical s → step s = .next t → PlanesCanonical t

/-- Rule R124 (P2): through every step, at every bit position at most one plane holds 0. -/
def Obligations.StepKeepsColoursExclusive : Prop :=
  ∀ s t : State, PlanesCanonical s → ColoursExclusive s → step s = .next t → ColoursExclusive t

/-- Rule R58: through every step, the bit positions no pixel uses hold 1. -/
def Obligations.StepKeepsUnusedBitsSet : Prop :=
  ∀ s t : State, PlanesCanonical s → UnusedBitsSet s → step s = .next t → UnusedBitsSet t

/-- Rules R24, R25, R151: through every step, phase, operation and micro-step counter agree with the position in the
script, and between operations the phase is `Uninitialized` or `Ready`. -/
def Obligations.StepKeepsControlAgrees : Prop :=
  ∀ s t : State, ControlAgrees s → step s = .next t → ControlAgrees t

/-- Rule R140: between steps RST, once high, stays high, in every phase and after a failed INIT; and it is high while a
script runs and once the phase is `Ready`. The low half of the reset pulse is inside one step, a choice of the model
(log 3). -/
def Obligations.StepKeepsResetLineReleased : Prop :=
  ∀ s t : State, step s = .next t →
    (s.rst = .high → t.rst = .high) ∧ (ResetLineReleased s → ResetLineReleased t)

/-- Rules R24, R221: `Ready` is never left. -/
def Obligations.ReadyIsNeverLeft : Prop :=
  ∀ s t : State, ControlAgrees s → s.phase = .ready → step s = .next t → t.phase = .ready

/-- Rules R50, R61: no step but one that runs CLEAR or an in-bounds DRAW_PIXEL changes a plane. -/
def Obligations.OnlyTheStoreWritesPlanes : Prop :=
  ∀ s t : State, step s = .next t → t.planes ≠ s.planes →
    s.seq = .idle ∧ ∃ w rest, s.requests = w :: rest ∧
      (opField w = 0 ∨ (opField w = 1 ∧ InBounds (xField w).toInt (yField w).toInt))

/-- Rule R66: no event is ever taken back or changed: the trace and the bytes on the wire only grow. -/
def Obligations.TraceOnlyGrows : Prop :=
  ∀ s t : State, step s = .next t → s.trace <+: t.trace ∧ s.wire <+: t.wire

/-- Rules R90, R93: every step that writes to the SPI port stands at a position of a script, writes first that
position's opcode with DC low, and writes nothing else with DC low: whatever it writes after that comes after a drive of
DC high. Every other step writes nothing. -/
def Obligations.OnlyScriptOpcodesAreWritten : Prop :=
  ∀ s t : State, step s = .next t →
    (∀ site, s.seq = .frame site → ∃ r rest, t.trace =
        s.trace ++ [.drive .dc .low, .drive .cs .low, .spiWrite [scriptOpcode site] r] ++ rest ∧
      opcodeSequence .low rest = [] ∧ Event.drive .dc .low ∉ rest ∧
      ∀ bytes a before after, rest = before ++ .spiWrite bytes a :: after → Event.drive .dc .high ∈ before) ∧
    ((∀ site, s.seq ≠ .frame site) → t.wire = s.wire ∧
      ∀ bytes r, Event.spiWrite bytes r ∈ t.trace → Event.spiWrite bytes r ∈ s.trace)
end

