-- ==== Sys2Proof/Laws/Memory.lean ====
section
/-! SUPPORT. The laws of plane memory: read after write, the canonical form kept, equal reads make equal memories. -/

namespace Sys2Proof.Machine

theorem Memory.wf_nil : Memory.wf [] := by simp [Memory.wf]

theorem Memory.wf_cons {a : Nat} {v : Byte} {m : Memory} :
    Memory.wf ((a, v) :: m) ↔ (∀ c ∈ m, a < c.1) ∧ a < 3813 ∧ v ≠ Config.CLEAR_BYTE ∧ Memory.wf m := by
  simp only [Memory.wf, List.pairwise_cons, List.forall_mem_cons]
  tauto

@[simp] theorem Memory.read_nil (a : Nat) : Memory.read [] a = Config.CLEAR_BYTE := rfl

/-- A memory whose indexes all lie above `a` lists nothing at `a`. -/
theorem Memory.read_of_lt {m : Memory} {a : Nat} (h : ∀ c ∈ m, a < c.1) : m.read a = Config.CLEAR_BYTE := by
  induction m with
  | nil => rfl
  | cons c m ih =>
    obtain ⟨b, u⟩ := c
    have hb : a ≠ b := by have := h (b, u) (by simp); simp at this; omega
    simp [Memory.read, hb, ih fun c hc => h c (by simp [hc])]

/-- A listed byte is read. -/
theorem Memory.read_mem {m : Memory} {c : Host.Cell} (h : m.wf) (hc : c ∈ m) : m.read c.1 = c.2 := by
  induction m with
  | nil => simp at hc
  | cons d m ih =>
    obtain ⟨b, u⟩ := d
    rw [Memory.wf_cons] at h
    rcases List.mem_cons.1 hc with rfl | hm
    · simp [Memory.read]
    · have : c.1 ≠ b := by have := h.1 c hm; omega
      simp [Memory.read, this, ih h.2.2.2 hm]

/-- Read after write: the written byte at the written index, every other index as before. -/
theorem Memory.read_write {m : Memory} (h : m.wf) (a b : Nat) (v : Byte) :
    (m.write a v).read b = if b = a then v else m.read b := by
  induction m with
  | nil => by_cases hv : v = Config.CLEAR_BYTE <;> simp [Memory.write, Memory.read, hv]
  | cons c m ih =>
    obtain ⟨k, u⟩ := c
    have h' := Memory.wf_cons.1 h
    simp only [Memory.write]
    split
    · rename_i hlt
      have hall : ∀ c ∈ (k, u) :: m, a < c.1 := by
        intro c hc
        rcases List.mem_cons.1 hc with rfl | hm
        · exact hlt
        · have := h'.1 c hm; omega
      split
      · rename_i hv
        by_cases hb : b = a
        · simp [hb, hv, Memory.read_of_lt hall]
        · simp [hb]
      · by_cases hb : b = a <;> simp [Memory.read, hb]
    · split
      · rename_i hlt heq
        subst heq
        split
        · rename_i hv
          by_cases hb : b = a
          · subst hb; simp [hv, Memory.read_of_lt h'.1]
          · simp [Memory.read, hb]
        · by_cases hb : b = a <;> simp [Memory.read, hb]
      · rename_i hlt hne
        by_cases hk : b = k
        · subst hk
          have : b ≠ a := fun e => hne e.symm
          simp [Memory.read, this]
        · simp [Memory.read, hk, ih h'.2.2.2]

/-- A write lists only the written index and indexes listed before. -/
theorem Memory.mem_write {m : Memory} {a : Nat} {v : Byte} {c : Host.Cell} (hc : c ∈ m.write a v) :
    (c = (a, v) ∧ v ≠ Config.CLEAR_BYTE) ∨ c ∈ m := by
  induction m with
  | nil =>
    simp only [Memory.write] at hc
    split at hc <;> simp_all
  | cons d m ih =>
    obtain ⟨k, u⟩ := d
    simp only [Memory.write] at hc
    split at hc
    · split at hc <;> simp_all
    · split at hc
      · split at hc
        · simp_all
        · rcases List.mem_cons.1 hc with rfl | hm <;> simp_all
      · rcases List.mem_cons.1 hc with rfl | hm
        · simp
        · rcases ih hm with h | h
          · exact .inl h
          · exact .inr (by simp [h])

/-- A write inside the plane keeps the canonical form. -/
theorem Memory.write_wf {m : Memory} (h : m.wf) {a : Nat} (ha : a < 3813) (v : Byte) : (m.write a v).wf := by
  induction m with
  | nil =>
    simp only [Memory.write]
    split
    · exact Memory.wf_nil
    · rename_i hv
      exact Memory.wf_cons.2 ⟨by simp, ha, hv, Memory.wf_nil⟩
  | cons c m ih =>
    obtain ⟨k, u⟩ := c
    have h' := Memory.wf_cons.1 h
    simp only [Memory.write]
    split
    · rename_i hlt
      split
      · exact h
      · rename_i hv
        refine Memory.wf_cons.2 ⟨fun c hc => ?_, ha, hv, h⟩
        rcases List.mem_cons.1 hc with rfl | hm
        · exact hlt
        · have := h'.1 c hm; omega
    · split
      · rename_i hlt heq
        split
        · exact h'.2.2.2
        · rename_i hv
          exact Memory.wf_cons.2 ⟨fun c hc => heq ▸ h'.1 c hc, ha, hv, h'.2.2.2⟩
      · rename_i hlt hne
        refine Memory.wf_cons.2 ⟨fun c hc => ?_, h'.2.1, h'.2.2.1, ih h'.2.2.2⟩
        rcases Memory.mem_write hc with ⟨rfl, -⟩ | hm
        · show k < a; omega
        · exact h'.1 c hm

/-- Canonical memories that read alike are equal. -/
theorem Memory.ext_read {m n : Memory} (hm : m.wf) (hn : n.wf) (h : ∀ a < 3813, m.read a = n.read a) : m = n := by
  induction m generalizing n with
  | nil =>
    cases n with
    | nil => rfl
    | cons c n =>
      obtain ⟨k, u⟩ := c
      have hn' := Memory.wf_cons.1 hn
      have := h k hn'.2.1
      simp [Memory.read] at this
      exact absurd this.symm hn'.2.2.1
  | cons c m ih =>
    obtain ⟨k, u⟩ := c
    have hm' := Memory.wf_cons.1 hm
    cases n with
    | nil =>
      have := h k hm'.2.1
      simp [Memory.read] at this
      exact absurd this hm'.2.2.1
    | cons d n =>
      obtain ⟨l, w⟩ := d
      have hn' := Memory.wf_cons.1 hn
      have hkl : k = l := by
        rcases Nat.lt_trichotomy k l with hlt | heq | hgt
        · have hr := h k hm'.2.1
          rw [Memory.read_of_lt (m := (l, w) :: n) (a := k)] at hr
          · simp [Memory.read] at hr
            exact absurd hr hm'.2.2.1
          · intro c hc
            rcases List.mem_cons.1 hc with rfl | hc
            · exact hlt
            · have := hn'.1 c hc; omega
        · exact heq
        · have hr := h l hn'.2.1
          rw [Memory.read_of_lt (m := (k, u) :: m) (a := l)] at hr
          · simp [Memory.read] at hr
            exact absurd hr.symm hn'.2.2.1
          · intro c hc
            rcases List.mem_cons.1 hc with rfl | hc
            · exact hgt
            · have := hm'.1 c hc; omega
      subst hkl
      have huw : u = w := by simpa [Memory.read] using h k hm'.2.1
      subst huw
      refine congrArg _ (ih hm'.2.2.2 hn'.2.2.2 fun a ha => ?_)
      by_cases hak : a = k
      · subst hak
        rw [Memory.read_of_lt hm'.1, Memory.read_of_lt hn'.1]
      · simpa [Memory.read, hak] using h a ha

/-! ## The three planes -/

/-- Reading a plane after a plane write. -/
theorem planeRead_planeWrite {pl : Planes} (h : pl.wf) (p q : Plane) (idx j : Fin 3813) (v : Byte) :
    planeRead (planeWrite pl p idx v) q j = if q = p ∧ j = idx then v else planeRead pl q j := by
  cases p <;> cases q <;>
    simp [planeRead, planeWrite, Planes.mem, Memory.read_write h.1, Memory.read_write h.2.1,
      Memory.read_write h.2.2, Fin.ext_iff]

/-- A plane write keeps the canonical form. -/
theorem planeWrite_wf {pl : Planes} (h : pl.wf) (p : Plane) (idx : Fin 3813) (v : Byte) :
    (planeWrite pl p idx v).wf := by
  cases p <;> simp only [Planes.wf, planeWrite]
  · exact ⟨Memory.write_wf h.1 idx.isLt v, h.2⟩
  · exact ⟨h.1, Memory.write_wf h.2.1 idx.isLt v, h.2.2⟩
  · exact ⟨h.1, h.2.1, Memory.write_wf h.2.2 idx.isLt v⟩

/-- Canonical planes that read alike are equal. -/
theorem Planes.ext_read {a b : Planes} (ha : a.wf) (hb : b.wf) (h : ∀ p idx, planeRead a p idx = planeRead b p idx) :
    a = b := by
  obtain ⟨b1, r1, y1⟩ := a
  obtain ⟨b2, r2, y2⟩ := b
  have e1 : b1 = b2 := Memory.ext_read ha.1 hb.1 fun k hk => h .bw ⟨k, hk⟩
  have e2 : r1 = r2 := Memory.ext_read ha.2.1 hb.2.1 fun k hk => h .red ⟨k, hk⟩
  have e3 : y1 = y2 := Memory.ext_read ha.2.2 hb.2.2 fun k hk => h .yellow ⟨k, hk⟩
  rw [e1, e2, e3]

@[simp] theorem planeRead_clearPlanes (p : Plane) (idx : Fin 3813) :
    planeRead clearPlanes p idx = Config.CLEAR_BYTE := by
  cases p <;> rfl

theorem clearPlanes_wf : clearPlanes.wf := ⟨Memory.wf_nil, Memory.wf_nil, Memory.wf_nil⟩

end Sys2Proof.Machine
end

