-- ==== Sys2Proof/Laws/Draw.lean ====
section
/-! SUPPORT. The laws of the draw: what it does to every plane bit, and that it keeps the canonical form. -/

namespace Sys2Proof.Machine

/-- The mask has exactly its one bit. -/
theorem bitMask_getLsbD (b j : Fin 8) : (bitMask b).getLsbD j = decide (j = b) := by
  revert b j; decide

/-- A bit after it, or another, is set to 1. -/
theorem planeBitAt_setPlaneBit {pl : Planes} (h : pl.wf) (p q : Plane) (idx j : Fin 3813) (bit b : Fin 8) :
    planeBitAt (setPlaneBit p idx bit pl) q j b =
      if q = p ∧ j = idx ∧ b = bit then true else planeBitAt pl q j b := by
  unfold planeBitAt setPlaneBit
  rw [planeRead_planeWrite h]
  by_cases hq : q = p ∧ j = idx
  · obtain ⟨rfl, rfl⟩ := hq
    rw [if_pos ⟨rfl, rfl⟩, BitVec.getLsbD_or, bitMask_getLsbD]
    by_cases hb : b = bit <;> simp [hb]
  · rw [if_neg hq, if_neg (by tauto)]

/-- A bit after it, or another, is set to 0. -/
theorem planeBitAt_clearPlaneBit {pl : Planes} (h : pl.wf) (p q : Plane) (idx j : Fin 3813) (bit b : Fin 8) :
    planeBitAt (clearPlaneBit p idx bit pl) q j b =
      if q = p ∧ j = idx ∧ b = bit then false else planeBitAt pl q j b := by
  unfold planeBitAt clearPlaneBit
  rw [planeRead_planeWrite h]
  by_cases hq : q = p ∧ j = idx
  · obtain ⟨rfl, rfl⟩ := hq
    rw [if_pos ⟨rfl, rfl⟩, BitVec.getLsbD_and, BitVec.getLsbD_not, bitMask_getLsbD]
    by_cases hb : b = bit <;> simp [hb]
  · rw [if_neg hq, if_neg (by tauto)]

theorem setPlaneBit_wf {pl : Planes} (h : pl.wf) (p : Plane) (idx : Fin 3813) (bit : Fin 8) :
    (setPlaneBit p idx bit pl).wf := planeWrite_wf h ..

theorem clearPlaneBit_wf {pl : Planes} (h : pl.wf) (p : Plane) (idx : Fin 3813) (bit : Fin 8) :
    (clearPlaneBit p idx bit pl).wf := planeWrite_wf h ..

/-- A draw keeps the canonical form. -/
theorem drawPlanes_wf {pl : Planes} (h : pl.wf) (idx : Fin 3813) (bit : Fin 8) (c : BitVec 2) :
    (drawPlanes idx bit c pl).wf := by
  have h3 := setPlaneBit_wf (setPlaneBit_wf (setPlaneBit_wf h .bw idx bit) .red idx bit) .yellow idx bit
  unfold drawPlanes
  split
  · exact clearPlaneBit_wf h3 ..
  · split
    · exact clearPlaneBit_wf h3 ..
    · split
      · exact clearPlaneBit_wf h3 ..
      · exact h3

/-- What a draw does to every bit position: the drawn one holds the colour's bits, every other one is as before. -/
theorem bitsAt_drawPlanes {pl : Planes} (h : pl.wf) (idx j : Fin 3813) (bit b : Fin 8) (c : Color) :
    bitsAt (drawPlanes idx bit c.code pl) j b = if j = idx ∧ b = bit then colorBits c else bitsAt pl j b := by
  have h1 := setPlaneBit_wf h .bw idx bit
  have h2 := setPlaneBit_wf h1 .red idx bit
  have h3 := setPlaneBit_wf h2 .yellow idx bit
  by_cases hj : j = idx ∧ b = bit
  · obtain ⟨rfl, rfl⟩ := hj
    cases c <;>
      simp [drawPlanes, bitsAt, Color.code, Config.CODE_BLACK, Config.CODE_WHITE, Config.CODE_YELLOW,
        Config.CODE_RED, colorBits, planeBitAt_clearPlaneBit h3, planeBitAt_setPlaneBit h2, planeBitAt_setPlaneBit h1,
        planeBitAt_setPlaneBit h]
  · cases c <;>
      simp [drawPlanes, bitsAt, Color.code, Config.CODE_BLACK, Config.CODE_WHITE, Config.CODE_YELLOW,
        Config.CODE_RED, planeBitAt_clearPlaneBit h3, planeBitAt_setPlaneBit h2, planeBitAt_setPlaneBit h1,
        planeBitAt_setPlaneBit h, hj]

/-- A byte is fixed by its eight bits. -/
theorem byte_ext {u v : Byte} (h : ∀ b : Fin 8, u.getLsbD b = v.getLsbD b) : u = v :=
  BitVec.eq_of_getLsbD_eq fun i hi => h ⟨i, hi⟩

/-- Canonical planes with the same bits are equal. -/
theorem Planes.ext_bits {a b : Planes} (ha : a.wf) (hb : b.wf) (h : ∀ idx bit, bitsAt a idx bit = bitsAt b idx bit) :
    a = b := by
  refine Planes.ext_read ha hb fun p idx => byte_ext fun bit => ?_
  have := h idx bit
  simp only [bitsAt, Prod.mk.injEq, planeBitAt] at this
  cases p
  · exact this.1
  · exact this.2.1
  · exact this.2.2

/-- The code read at a position is fixed by its three bits. -/
theorem codeAt_eq_of_bitsAt {a b : Planes} {idx j : Fin 3813} {bit c : Fin 8} (h : bitsAt a idx bit = bitsAt b j c) :
    codeAt a idx bit = codeAt b j c := by
  simp only [bitsAt, Prod.mk.injEq] at h
  simp only [codeAt, h.1, h.2.1, h.2.2]

/-- A position that holds a colour's bits reads as the colour's code. -/
theorem codeAt_of_colorBits {pl : Planes} {idx : Fin 3813} {bit : Fin 8} {c : Color}
    (h : bitsAt pl idx bit = colorBits c) : codeAt pl idx bit = c.code := by
  simp only [bitsAt] at h
  cases c <;> simp_all [codeAt, colorBits, Color.code]

/-- After reset or CLEAR every bit is 1. -/
@[simp] theorem bitsAt_clearPlanes (idx : Fin 3813) (bit : Fin 8) :
    bitsAt clearPlanes idx bit = (true, true, true) := by
  simp only [bitsAt, planeBitAt, planeRead_clearPlanes]
  revert bit; decide

/-! ## The bounds check -/

theorem pixelAt_of_inBounds {x y : Int} (h : InBounds x y) :
    pixelAt x y = some ⟨⟨x.toNat, by omega⟩, ⟨y.toNat, by omega⟩⟩ := dif_pos h

theorem pixelAt_of_not_inBounds {x y : Int} (h : ¬InBounds x y) : pixelAt x y = none := dif_neg h

/-- A coordinate in the signed 32-bit range survives its register. -/
theorem toInt_ofInt_of_inRange {v : Int} (h : CoordInRange v) : (BitVec.ofInt 32 v).toInt = v := by
  rw [BitVec.toInt_ofInt]
  obtain ⟨h1, h2⟩ := h
  exact Int.bmod_eq_of_le (by norm_num; omega) (by norm_num; omega)

/-- A pixel's own coordinates pass the check and give the pixel back. -/
@[simp] theorem pixelAt_coords (p : Pixel) : pixelAt (p.x.val : Int) (p.y.val : Int) = some p := by
  have hx := p.x.isLt
  have hy := p.y.isLt
  rw [pixelAt_of_inBounds ⟨by omega, by omega, by omega, by omega⟩]
  simp

end Sys2Proof.Machine
end

