-- ==== Sys2Proof/Laws/State.lean ====
section
/-! SUPPORT. One lemma per field for each named update of the state: later proofs read a field without unfolding the update. -/

namespace Sys2Proof.Machine

variable (s : State)

/-! ## `emit` -/

@[simp] theorem emit_planes (e : Event) : (emit e s).planes = s.planes := rfl
@[simp] theorem emit_phase (e : Event) : (emit e s).phase = s.phase := rfl
@[simp] theorem emit_work (e : Event) : (emit e s).work = s.work := rfl
@[simp] theorem emit_cs (e : Event) : (emit e s).cs = s.cs := rfl
@[simp] theorem emit_dc (e : Event) : (emit e s).dc = s.dc := rfl
@[simp] theorem emit_rst (e : Event) : (emit e s).rst = s.rst := rfl
@[simp] theorem emit_res (e : Event) : (emit e s).res = s.res := rfl
@[simp] theorem emit_seq (e : Event) : (emit e s).seq = s.seq := rfl
@[simp] theorem emit_requests (e : Event) : (emit e s).requests = s.requests := rfl
@[simp] theorem emit_busyIn (e : Event) : (emit e s).busyIn = s.busyIn := rfl
@[simp] theorem emit_spiIn (e : Event) : (emit e s).spiIn = s.spiIn := rfl
@[simp] theorem emit_freeCount (e : Event) : (emit e s).freeCount = s.freeCount := rfl
@[simp] theorem emit_trace (e : Event) : (emit e s).trace = s.trace ++ [e] := rfl
@[simp] theorem emit_wire (e : Event) : (emit e s).wire = s.wire := rfl
@[simp] theorem emit_reply (e : Event) : (emit e s).reply = s.reply := rfl

/-! ## `tick` -/

@[simp] theorem tick_planes : (tick s).planes = s.planes := rfl
@[simp] theorem tick_phase : (tick s).phase = s.phase := rfl
@[simp] theorem tick_work : (tick s).work = { s.work with upc := s.work.upc + 1 } := rfl
@[simp] theorem tick_cs : (tick s).cs = s.cs := rfl
@[simp] theorem tick_dc : (tick s).dc = s.dc := rfl
@[simp] theorem tick_rst : (tick s).rst = s.rst := rfl
@[simp] theorem tick_res : (tick s).res = s.res := rfl
@[simp] theorem tick_seq : (tick s).seq = s.seq := rfl
@[simp] theorem tick_requests : (tick s).requests = s.requests := rfl
@[simp] theorem tick_busyIn : (tick s).busyIn = s.busyIn := rfl
@[simp] theorem tick_spiIn : (tick s).spiIn = s.spiIn := rfl
@[simp] theorem tick_freeCount : (tick s).freeCount = s.freeCount := rfl
@[simp] theorem tick_trace : (tick s).trace = s.trace := rfl
@[simp] theorem tick_wire : (tick s).wire = s.wire := rfl
@[simp] theorem tick_reply : (tick s).reply = s.reply := rfl

/-! ## `deliver` -/

@[simp] theorem deliver_planes (bs : List Byte) : (deliver bs s).planes = s.planes := rfl
@[simp] theorem deliver_phase (bs : List Byte) : (deliver bs s).phase = s.phase := rfl
@[simp] theorem deliver_work (bs : List Byte) : (deliver bs s).work = s.work := rfl
@[simp] theorem deliver_cs (bs : List Byte) : (deliver bs s).cs = s.cs := rfl
@[simp] theorem deliver_dc (bs : List Byte) : (deliver bs s).dc = s.dc := rfl
@[simp] theorem deliver_rst (bs : List Byte) : (deliver bs s).rst = s.rst := rfl
@[simp] theorem deliver_res (bs : List Byte) : (deliver bs s).res = s.res := rfl
@[simp] theorem deliver_seq (bs : List Byte) : (deliver bs s).seq = s.seq := rfl
@[simp] theorem deliver_requests (bs : List Byte) : (deliver bs s).requests = s.requests := rfl
@[simp] theorem deliver_busyIn (bs : List Byte) : (deliver bs s).busyIn = s.busyIn := rfl
@[simp] theorem deliver_spiIn (bs : List Byte) : (deliver bs s).spiIn = s.spiIn := rfl
@[simp] theorem deliver_freeCount (bs : List Byte) : (deliver bs s).freeCount = s.freeCount := rfl
@[simp] theorem deliver_trace (bs : List Byte) : (deliver bs s).trace = s.trace := rfl
@[simp] theorem deliver_wire (bs : List Byte) : (deliver bs s).wire = s.wire ++ bs.map (fun b => (s.dc, b)) := rfl
@[simp] theorem deliver_reply (bs : List Byte) : (deliver bs s).reply = s.reply := rfl

/-! ## `accept` -/

@[simp] theorem accept_planes (op : BitVec 3) : (accept op s).planes = s.planes := rfl
@[simp] theorem accept_phase (op : BitVec 3) : (accept op s).phase = s.phase := rfl
@[simp] theorem accept_work (op : BitVec 3) : (accept op s).work = { s.work with op := op, upc := 0 } := rfl
@[simp] theorem accept_cs (op : BitVec 3) : (accept op s).cs = s.cs := rfl
@[simp] theorem accept_dc (op : BitVec 3) : (accept op s).dc = s.dc := rfl
@[simp] theorem accept_rst (op : BitVec 3) : (accept op s).rst = s.rst := rfl
@[simp] theorem accept_res (op : BitVec 3) : (accept op s).res = s.res := rfl
@[simp] theorem accept_seq (op : BitVec 3) : (accept op s).seq = s.seq := rfl
@[simp] theorem accept_requests (op : BitVec 3) : (accept op s).requests = s.requests := rfl
@[simp] theorem accept_busyIn (op : BitVec 3) : (accept op s).busyIn = s.busyIn := rfl
@[simp] theorem accept_spiIn (op : BitVec 3) : (accept op s).spiIn = s.spiIn := rfl
@[simp] theorem accept_freeCount (op : BitVec 3) : (accept op s).freeCount = s.freeCount := rfl
@[simp] theorem accept_trace (op : BitVec 3) : (accept op s).trace = s.trace := rfl
@[simp] theorem accept_wire (op : BitVec 3) : (accept op s).wire = s.wire := rfl
@[simp] theorem accept_reply (op : BitVec 3) : (accept op s).reply = s.reply := rfl

/-! ## `endOperation` -/

@[simp] theorem endOperation_planes (r : BitVec 1) (v : Option Size) : (endOperation r v s).planes = s.planes := rfl
@[simp] theorem endOperation_phase (r : BitVec 1) (v : Option Size) : (endOperation r v s).phase = s.phase := rfl
@[simp] theorem endOperation_work (r : BitVec 1) (v : Option Size) : (endOperation r v s).work = Config.freeWork s.freeCount :=
  rfl
@[simp] theorem endOperation_cs (r : BitVec 1) (v : Option Size) : (endOperation r v s).cs = s.cs := rfl
@[simp] theorem endOperation_dc (r : BitVec 1) (v : Option Size) : (endOperation r v s).dc = s.dc := rfl
@[simp] theorem endOperation_rst (r : BitVec 1) (v : Option Size) : (endOperation r v s).rst = s.rst := rfl
@[simp] theorem endOperation_res (r : BitVec 1) (v : Option Size) : (endOperation r v s).res = r := rfl
@[simp] theorem endOperation_seq (r : BitVec 1) (v : Option Size) : (endOperation r v s).seq = .idle := rfl
@[simp] theorem endOperation_requests (r : BitVec 1) (v : Option Size) : (endOperation r v s).requests = s.requests :=
  rfl
@[simp] theorem endOperation_busyIn (r : BitVec 1) (v : Option Size) : (endOperation r v s).busyIn = s.busyIn := rfl
@[simp] theorem endOperation_spiIn (r : BitVec 1) (v : Option Size) : (endOperation r v s).spiIn = s.spiIn := rfl
@[simp] theorem endOperation_freeCount (r : BitVec 1) (v : Option Size) : (endOperation r v s).freeCount = s.freeCount + 1 :=
  rfl
@[simp] theorem endOperation_trace (r : BitVec 1) (v : Option Size) : (endOperation r v s).trace = s.trace := rfl
@[simp] theorem endOperation_wire (r : BitVec 1) (v : Option Size) : (endOperation r v s).wire = s.wire := rfl
@[simp] theorem endOperation_reply (r : BitVec 1) (v : Option Size) : (endOperation r v s).reply = v := rfl

/-! ## `complete` -/

@[simp] theorem complete_planes : (complete s).planes = s.planes := rfl
@[simp] theorem complete_phase : (complete s).phase = s.phase := rfl
@[simp] theorem complete_work : (complete s).work = Config.freeWork s.freeCount := rfl
@[simp] theorem complete_cs : (complete s).cs = s.cs := rfl
@[simp] theorem complete_dc : (complete s).dc = s.dc := rfl
@[simp] theorem complete_rst : (complete s).rst = s.rst := rfl
@[simp] theorem complete_res : (complete s).res = RES_OK := rfl
@[simp] theorem complete_seq : (complete s).seq = .idle := rfl
@[simp] theorem complete_requests : (complete s).requests = s.requests := rfl
@[simp] theorem complete_busyIn : (complete s).busyIn = s.busyIn := rfl
@[simp] theorem complete_spiIn : (complete s).spiIn = s.spiIn := rfl
@[simp] theorem complete_freeCount : (complete s).freeCount = s.freeCount + 1 := rfl
@[simp] theorem complete_trace : (complete s).trace = s.trace := rfl
@[simp] theorem complete_wire : (complete s).wire = s.wire := rfl
@[simp] theorem complete_reply : (complete s).reply = none := rfl

/-! ## `transferError` -/

@[simp] theorem transferError_planes : (transferError s).planes = s.planes := rfl
@[simp] theorem transferError_phase : (transferError s).phase = phaseAfterFault s.seq s.phase := rfl
@[simp] theorem transferError_work : (transferError s).work = Config.freeWork s.freeCount := rfl
@[simp] theorem transferError_cs : (transferError s).cs = s.cs := rfl
@[simp] theorem transferError_dc : (transferError s).dc = s.dc := rfl
@[simp] theorem transferError_rst : (transferError s).rst = s.rst := rfl
@[simp] theorem transferError_res : (transferError s).res = RES_TRANSFER_ERROR := rfl
@[simp] theorem transferError_seq : (transferError s).seq = .idle := rfl
@[simp] theorem transferError_requests : (transferError s).requests = s.requests := rfl
@[simp] theorem transferError_busyIn : (transferError s).busyIn = s.busyIn := rfl
@[simp] theorem transferError_spiIn : (transferError s).spiIn = s.spiIn := rfl
@[simp] theorem transferError_freeCount : (transferError s).freeCount = s.freeCount + 1 := rfl
@[simp] theorem transferError_trace : (transferError s).trace = s.trace := rfl
@[simp] theorem transferError_wire : (transferError s).wire = s.wire := rfl
@[simp] theorem transferError_reply : (transferError s).reply = none := rfl

/-! ## `loadDraw` -/

@[simp] theorem loadDraw_planes (x y : Int) (c : Color) : (loadDraw x y c s).planes = s.planes := rfl
@[simp] theorem loadDraw_phase (x y : Int) (c : Color) : (loadDraw x y c s).phase = s.phase := rfl
@[simp] theorem loadDraw_work (x y : Int) (c : Color) : (loadDraw x y c s).work = { s.work with x := BitVec.ofInt 32 x, y := BitVec.ofInt 32 y, color := c.code } :=
  rfl
@[simp] theorem loadDraw_cs (x y : Int) (c : Color) : (loadDraw x y c s).cs = s.cs := rfl
@[simp] theorem loadDraw_dc (x y : Int) (c : Color) : (loadDraw x y c s).dc = s.dc := rfl
@[simp] theorem loadDraw_rst (x y : Int) (c : Color) : (loadDraw x y c s).rst = s.rst := rfl
@[simp] theorem loadDraw_res (x y : Int) (c : Color) : (loadDraw x y c s).res = s.res := rfl
@[simp] theorem loadDraw_seq (x y : Int) (c : Color) : (loadDraw x y c s).seq = s.seq := rfl
@[simp] theorem loadDraw_requests (x y : Int) (c : Color) : (loadDraw x y c s).requests = s.requests := rfl
@[simp] theorem loadDraw_busyIn (x y : Int) (c : Color) : (loadDraw x y c s).busyIn = s.busyIn := rfl
@[simp] theorem loadDraw_spiIn (x y : Int) (c : Color) : (loadDraw x y c s).spiIn = s.spiIn := rfl
@[simp] theorem loadDraw_freeCount (x y : Int) (c : Color) : (loadDraw x y c s).freeCount = s.freeCount := rfl
@[simp] theorem loadDraw_trace (x y : Int) (c : Color) : (loadDraw x y c s).trace = s.trace := rfl
@[simp] theorem loadDraw_wire (x y : Int) (c : Color) : (loadDraw x y c s).wire = s.wire := rfl
@[simp] theorem loadDraw_reply (x y : Int) (c : Color) : (loadDraw x y c s).reply = s.reply := rfl

/-! ## `loadAddr` -/

@[simp] theorem loadAddr_planes (p : Pixel) : (loadAddr p s).planes = s.planes := rfl
@[simp] theorem loadAddr_phase (p : Pixel) : (loadAddr p s).phase = s.phase := rfl
@[simp] theorem loadAddr_work (p : Pixel) : (loadAddr p s).work = withAddr p s.work := rfl
@[simp] theorem loadAddr_cs (p : Pixel) : (loadAddr p s).cs = s.cs := rfl
@[simp] theorem loadAddr_dc (p : Pixel) : (loadAddr p s).dc = s.dc := rfl
@[simp] theorem loadAddr_rst (p : Pixel) : (loadAddr p s).rst = s.rst := rfl
@[simp] theorem loadAddr_res (p : Pixel) : (loadAddr p s).res = s.res := rfl
@[simp] theorem loadAddr_seq (p : Pixel) : (loadAddr p s).seq = s.seq := rfl
@[simp] theorem loadAddr_requests (p : Pixel) : (loadAddr p s).requests = s.requests := rfl
@[simp] theorem loadAddr_busyIn (p : Pixel) : (loadAddr p s).busyIn = s.busyIn := rfl
@[simp] theorem loadAddr_spiIn (p : Pixel) : (loadAddr p s).spiIn = s.spiIn := rfl
@[simp] theorem loadAddr_freeCount (p : Pixel) : (loadAddr p s).freeCount = s.freeCount := rfl
@[simp] theorem loadAddr_trace (p : Pixel) : (loadAddr p s).trace = s.trace := rfl
@[simp] theorem loadAddr_wire (p : Pixel) : (loadAddr p s).wire = s.wire := rfl
@[simp] theorem loadAddr_reply (p : Pixel) : (loadAddr p s).reply = s.reply := rfl

/-! ## `paint` -/

@[simp] theorem paint_planes : (paint s).planes = paintedPlanes s.work s.planes := rfl
@[simp] theorem paint_phase : (paint s).phase = s.phase := rfl
@[simp] theorem paint_work : (paint s).work = s.work := rfl
@[simp] theorem paint_cs : (paint s).cs = s.cs := rfl
@[simp] theorem paint_dc : (paint s).dc = s.dc := rfl
@[simp] theorem paint_rst : (paint s).rst = s.rst := rfl
@[simp] theorem paint_res : (paint s).res = s.res := rfl
@[simp] theorem paint_seq : (paint s).seq = s.seq := rfl
@[simp] theorem paint_requests : (paint s).requests = s.requests := rfl
@[simp] theorem paint_busyIn : (paint s).busyIn = s.busyIn := rfl
@[simp] theorem paint_spiIn : (paint s).spiIn = s.spiIn := rfl
@[simp] theorem paint_freeCount : (paint s).freeCount = s.freeCount := rfl
@[simp] theorem paint_trace : (paint s).trace = s.trace := rfl
@[simp] theorem paint_wire : (paint s).wire = s.wire := rfl
@[simp] theorem paint_reply : (paint s).reply = s.reply := rfl

/-- An index that was stored in a wider register is read back. -/
@[simp] theorem indexBelow_castLE {n m : Nat} (h : n ≤ m) (v : Fin n) : indexBelow n (v.castLE h) = some v := by
  simp [indexBelow]

/-- The draw after `PlaneAddr` is loaded is the draw at the pixel's bit position. -/
@[simp] theorem paintedPlanes_withAddr (p : Pixel) (w : WorkRegs) (pl : Planes) :
    paintedPlanes (withAddr p w) pl = drawPlanes (planeIdx p) (planeBit p) w.color pl := by
  simp [paintedPlanes, withAddr]

/-! ## `loadEntry` -/

@[simp] theorem loadEntry_work (k : Fin 14) : (loadEntry k s).work = { s.work with k := k.castLE (by decide) } := rfl
@[simp] theorem loadEntry_planes (k : Fin 14) : (loadEntry k s).planes = s.planes := rfl
@[simp] theorem loadEntry_phase (k : Fin 14) : (loadEntry k s).phase = s.phase := rfl
@[simp] theorem loadEntry_cs (k : Fin 14) : (loadEntry k s).cs = s.cs := rfl
@[simp] theorem loadEntry_dc (k : Fin 14) : (loadEntry k s).dc = s.dc := rfl
@[simp] theorem loadEntry_rst (k : Fin 14) : (loadEntry k s).rst = s.rst := rfl
@[simp] theorem loadEntry_res (k : Fin 14) : (loadEntry k s).res = s.res := rfl
@[simp] theorem loadEntry_seq (k : Fin 14) : (loadEntry k s).seq = s.seq := rfl
@[simp] theorem loadEntry_requests (k : Fin 14) : (loadEntry k s).requests = s.requests := rfl
@[simp] theorem loadEntry_busyIn (k : Fin 14) : (loadEntry k s).busyIn = s.busyIn := rfl
@[simp] theorem loadEntry_spiIn (k : Fin 14) : (loadEntry k s).spiIn = s.spiIn := rfl
@[simp] theorem loadEntry_freeCount (k : Fin 14) : (loadEntry k s).freeCount = s.freeCount := rfl
@[simp] theorem loadEntry_trace (k : Fin 14) : (loadEntry k s).trace = s.trace := rfl
@[simp] theorem loadEntry_wire (k : Fin 14) : (loadEntry k s).wire = s.wire := rfl
@[simp] theorem loadEntry_reply (k : Fin 14) : (loadEntry k s).reply = s.reply := rfl

/-- Table entry `k` is transmitted from its register. -/
theorem configEntry_eq (k : Fin 14) (after : State → State) :
    configEntry k after s = transmit Config.CFG_OPS[k] (Config.cfgPayload k) after (loadEntry k s) := by
  simp [configEntry, sendEntry]

/-! ## `goToFrame` -/

@[simp] theorem goToFrame_planes (st : Site) : (goToFrame st s).planes = s.planes := rfl
@[simp] theorem goToFrame_phase (st : Site) : (goToFrame st s).phase = s.phase := rfl
@[simp] theorem goToFrame_work (st : Site) : (goToFrame st s).work = s.work := rfl
@[simp] theorem goToFrame_cs (st : Site) : (goToFrame st s).cs = s.cs := rfl
@[simp] theorem goToFrame_dc (st : Site) : (goToFrame st s).dc = s.dc := rfl
@[simp] theorem goToFrame_rst (st : Site) : (goToFrame st s).rst = s.rst := rfl
@[simp] theorem goToFrame_res (st : Site) : (goToFrame st s).res = s.res := rfl
@[simp] theorem goToFrame_seq (st : Site) : (goToFrame st s).seq = .frame st := rfl
@[simp] theorem goToFrame_requests (st : Site) : (goToFrame st s).requests = s.requests := rfl
@[simp] theorem goToFrame_busyIn (st : Site) : (goToFrame st s).busyIn = s.busyIn := rfl
@[simp] theorem goToFrame_spiIn (st : Site) : (goToFrame st s).spiIn = s.spiIn := rfl
@[simp] theorem goToFrame_freeCount (st : Site) : (goToFrame st s).freeCount = s.freeCount := rfl
@[simp] theorem goToFrame_trace (st : Site) : (goToFrame st s).trace = s.trace := rfl
@[simp] theorem goToFrame_wire (st : Site) : (goToFrame st s).wire = s.wire := rfl
@[simp] theorem goToFrame_reply (st : Site) : (goToFrame st s).reply = s.reply := rfl

/-! ## `goToWait` -/

@[simp] theorem goToWait_planes (p : Phase) (w : WaitPoint) : (goToWait p w s).planes = s.planes := rfl
@[simp] theorem goToWait_phase (p : Phase) (w : WaitPoint) : (goToWait p w s).phase = p := rfl
@[simp] theorem goToWait_work (p : Phase) (w : WaitPoint) : (goToWait p w s).work = s.work := rfl
@[simp] theorem goToWait_cs (p : Phase) (w : WaitPoint) : (goToWait p w s).cs = s.cs := rfl
@[simp] theorem goToWait_dc (p : Phase) (w : WaitPoint) : (goToWait p w s).dc = s.dc := rfl
@[simp] theorem goToWait_rst (p : Phase) (w : WaitPoint) : (goToWait p w s).rst = s.rst := rfl
@[simp] theorem goToWait_res (p : Phase) (w : WaitPoint) : (goToWait p w s).res = s.res := rfl
@[simp] theorem goToWait_seq (p : Phase) (w : WaitPoint) : (goToWait p w s).seq = .wait w := rfl
@[simp] theorem goToWait_requests (p : Phase) (w : WaitPoint) : (goToWait p w s).requests = s.requests := rfl
@[simp] theorem goToWait_busyIn (p : Phase) (w : WaitPoint) : (goToWait p w s).busyIn = s.busyIn := rfl
@[simp] theorem goToWait_spiIn (p : Phase) (w : WaitPoint) : (goToWait p w s).spiIn = s.spiIn := rfl
@[simp] theorem goToWait_freeCount (p : Phase) (w : WaitPoint) : (goToWait p w s).freeCount = s.freeCount := rfl
@[simp] theorem goToWait_trace (p : Phase) (w : WaitPoint) : (goToWait p w s).trace = s.trace := rfl
@[simp] theorem goToWait_wire (p : Phase) (w : WaitPoint) : (goToWait p w s).wire = s.wire := rfl
@[simp] theorem goToWait_reply (p : Phase) (w : WaitPoint) : (goToWait p w s).reply = s.reply := rfl

/-! ## `configured` -/

@[simp] theorem configured_planes : (configured s).planes = s.planes := rfl
@[simp] theorem configured_phase : (configured s).phase = .configured := rfl
@[simp] theorem configured_work : (configured s).work = s.work := rfl
@[simp] theorem configured_cs : (configured s).cs = s.cs := rfl
@[simp] theorem configured_dc : (configured s).dc = s.dc := rfl
@[simp] theorem configured_rst : (configured s).rst = s.rst := rfl
@[simp] theorem configured_res : (configured s).res = s.res := rfl
@[simp] theorem configured_seq : (configured s).seq = .frame (.init 15) := rfl
@[simp] theorem configured_requests : (configured s).requests = s.requests := rfl
@[simp] theorem configured_busyIn : (configured s).busyIn = s.busyIn := rfl
@[simp] theorem configured_spiIn : (configured s).spiIn = s.spiIn := rfl
@[simp] theorem configured_freeCount : (configured s).freeCount = s.freeCount := rfl
@[simp] theorem configured_trace : (configured s).trace = s.trace := rfl
@[simp] theorem configured_wire : (configured s).wire = s.wire := rfl
@[simp] theorem configured_reply : (configured s).reply = s.reply := rfl

/-! ## `dropSpi` -/

@[simp] theorem dropSpi_planes : (dropSpi s).planes = s.planes := by
  unfold dropSpi; split <;> rfl
@[simp] theorem dropSpi_phase : (dropSpi s).phase = s.phase := by
  unfold dropSpi; split <;> rfl
@[simp] theorem dropSpi_work : (dropSpi s).work = s.work := by
  unfold dropSpi; split <;> rfl
@[simp] theorem dropSpi_cs : (dropSpi s).cs = s.cs := by
  unfold dropSpi; split <;> rfl
@[simp] theorem dropSpi_dc : (dropSpi s).dc = s.dc := by
  unfold dropSpi; split <;> rfl
@[simp] theorem dropSpi_rst : (dropSpi s).rst = s.rst := by
  unfold dropSpi; split <;> rfl
@[simp] theorem dropSpi_res : (dropSpi s).res = s.res := by
  unfold dropSpi; split <;> rfl
@[simp] theorem dropSpi_seq : (dropSpi s).seq = s.seq := by
  unfold dropSpi; split <;> rfl
@[simp] theorem dropSpi_requests : (dropSpi s).requests = s.requests := by
  unfold dropSpi; split <;> rfl
@[simp] theorem dropSpi_busyIn : (dropSpi s).busyIn = s.busyIn := by
  unfold dropSpi; split <;> rfl
@[simp] theorem dropSpi_spiIn : (dropSpi s).spiIn = s.spiIn.tail := by
  unfold dropSpi; split <;> simp_all
@[simp] theorem dropSpi_trace : (dropSpi s).trace = s.trace := by
  unfold dropSpi; split <;> rfl
@[simp] theorem dropSpi_wire : (dropSpi s).wire = s.wire := by
  unfold dropSpi; split <;> rfl
@[simp] theorem dropSpi_reply : (dropSpi s).reply = s.reply := by
  unfold dropSpi; split <;> rfl

/-! ## `dropBusy` -/

@[simp] theorem dropBusy_planes : (dropBusy s).planes = s.planes := by
  unfold dropBusy; split <;> rfl
@[simp] theorem dropBusy_phase : (dropBusy s).phase = s.phase := by
  unfold dropBusy; split <;> rfl
@[simp] theorem dropBusy_work : (dropBusy s).work = s.work := by
  unfold dropBusy; split <;> rfl
@[simp] theorem dropBusy_cs : (dropBusy s).cs = s.cs := by
  unfold dropBusy; split <;> rfl
@[simp] theorem dropBusy_dc : (dropBusy s).dc = s.dc := by
  unfold dropBusy; split <;> rfl
@[simp] theorem dropBusy_rst : (dropBusy s).rst = s.rst := by
  unfold dropBusy; split <;> rfl
@[simp] theorem dropBusy_res : (dropBusy s).res = s.res := by
  unfold dropBusy; split <;> rfl
@[simp] theorem dropBusy_seq : (dropBusy s).seq = s.seq := by
  unfold dropBusy; split <;> rfl
@[simp] theorem dropBusy_requests : (dropBusy s).requests = s.requests := by
  unfold dropBusy; split <;> rfl
@[simp] theorem dropBusy_busyIn : (dropBusy s).busyIn = s.busyIn.tail := by
  unfold dropBusy; split <;> simp_all
@[simp] theorem dropBusy_spiIn : (dropBusy s).spiIn = s.spiIn := by
  unfold dropBusy; split <;> rfl
@[simp] theorem dropBusy_trace : (dropBusy s).trace = s.trace := by
  unfold dropBusy; split <;> rfl
@[simp] theorem dropBusy_wire : (dropBusy s).wire = s.wire := by
  unfold dropBusy; split <;> rfl
@[simp] theorem dropBusy_reply : (dropBusy s).reply = s.reply := by
  unfold dropBusy; split <;> rfl

/-! ## `setLatch` -/

@[simp] theorem setLatch_cs (v : Level) : setLatch .cs v s = { s with cs := v } := rfl
@[simp] theorem setLatch_dc (v : Level) : setLatch .dc v s = { s with dc := v } := rfl
@[simp] theorem setLatch_rst (v : Level) : setLatch .rst v s = { s with rst := v } := rfl

end Sys2Proof.Machine
end

