-- ==== Sys2Proof/Laws/Ports.lean ====
section
/-! SUPPORT. The laws of the ports: what one write, one CS window, one command and one turn of a busy-wait can do. -/

namespace Sys2Proof.Machine

/-! ## The answer queues do not see the other fields -/

theorem nextSpi_congr {s t : State} (h1 : t.spiIn = s.spiIn) (h2 : t.freeCount = s.freeCount) :
    nextSpi t = nextSpi s := by
  simp only [nextSpi, h1, h2]

/-- The working registers play no part in an answer. -/
theorem nextSpi_setWork (s : State) (w : WorkRegs) : nextSpi { s with work := w } = nextSpi s := rfl

/-- The free-value count after a `SpiWrite` answer is used. -/
theorem dropSpi_eq (s : State) :
    dropSpi s = { s with spiIn := s.spiIn.tail, freeCount := s.freeCount + (if s.spiIn = [] then 1 else 0) } := by
  unfold dropSpi
  split <;> rename_i h <;> simp [h]

theorem dropSpi_setWork (s : State) (w : WorkRegs) : dropSpi { s with work := w } = { dropSpi s with work := w } := by
  simp only [dropSpi_eq]

/-- The free-value count after a `Sample` answer is used. -/
theorem dropBusy_eq (s : State) :
    dropBusy s = { s with busyIn := s.busyIn.tail, freeCount := s.freeCount + (if s.busyIn = [] then 1 else 0) } := by
  unfold dropBusy
  split <;> rename_i h <;> simp [h]

@[simp] theorem nextSpi_cons {s : State} {a : SpiAnswer} {q : List SpiAnswer} (h : s.spiIn = a :: q) :
    nextSpi s = a := by simp [nextSpi, h]

@[simp] theorem nextBusy_cons {s : State} {v : Level} {q : List Level} (h : s.busyIn = v :: q) :
    nextBusy s = v := by simp [nextBusy, h]

/-! ## One CS window -/

/-- The state after a CS window whose write succeeds. -/
def afterWindow (dc : Level) (bytes : List Byte) (s : State) : State :=
  { dropSpi s with
    trace := s.trace ++ windowEvents dc bytes
    wire  := s.wire ++ bytes.map (fun b => (dc, b))
    dc    := dc
    cs    := .high
    work  := { s.work with upc := s.work.upc + 4 } }

/-- The state in which TransferError is raised by a CS window. -/
def atFailedWindow (dc : Level) (bytes : List Byte) (n : Nat) (s : State) : State :=
  { dropSpi s with
    trace := s.trace ++ failedWindowEvents dc bytes
    wire  := s.wire ++ (bytes.take n).map (fun b => (dc, b))
    dc    := dc
    cs    := .low
    work  := { s.work with upc := s.work.upc + 2 } }

theorem csWindow_of_ok {s : State} (dc : Level) (bytes : List Byte) (h : nextSpi s = .ok) :
    csWindow dc bytes s = .ok (afterWindow dc bytes s) := by
  have h' : nextSpi (drive .cs .low (drive .dc dc s)) = .ok := h
  simp only [csWindow, spiWrite, h']
  simp only [drive, setLatch, tick, emit, deliver, dropSpi_eq, afterWindow, windowEvents, List.append_assoc,
    List.cons_append, List.nil_append, BitVec.add_assoc]
  rfl

theorem csWindow_of_error {s : State} (dc : Level) (bytes : List Byte) {n : Nat} (h : nextSpi s = .error n) :
    csWindow dc bytes s = .error (atFailedWindow dc bytes n s) := by
  have h' : nextSpi (drive .cs .low (drive .dc dc s)) = .error n := h
  simp only [csWindow, spiWrite, h']
  simp only [drive, setLatch, tick, emit, deliver, dropSpi_eq, atFailedWindow, failedWindowEvents, List.append_assoc,
    List.cons_append, List.nil_append, BitVec.add_assoc]
  rfl

/-! ## One command -/

theorem sendCommand_of_opcode_error {s : State} (op : Byte) (payload : List Byte) {n : Nat}
    (h : nextSpi s = .error n) :
    sendCommand op payload s = .error (atFailedWindow .low [op] n s) := by
  simp only [sendCommand, opcodePhase, csWindow_of_error _ _ h]

theorem sendCommand_nil_of_ok {s : State} (op : Byte) (h : nextSpi s = .ok) :
    sendCommand op [] s = .ok (afterWindow .low [op] s) := by
  simp [sendCommand, opcodePhase, csWindow_of_ok _ _ h]

theorem sendCommand_of_payload_error {s : State} (op : Byte) {payload : List Byte} (hp : payload ≠ []) {n : Nat}
    (h : nextSpi s = .ok) (h2 : nextSpi (dropSpi s) = .error n) :
    sendCommand op payload s = .error (atFailedWindow .high payload n (afterWindow .low [op] s)) := by
  have h3 : nextSpi (afterWindow .low [op] s) = .error n := by
    rw [← h2]; exact nextSpi_congr rfl rfl
  simp only [sendCommand, opcodePhase, csWindow_of_ok _ _ h, if_neg hp, dataPhase, csWindow_of_error _ _ h3]

theorem sendCommand_of_ok {s : State} (op : Byte) {payload : List Byte} (hp : payload ≠ [])
    (h : nextSpi s = .ok) (h2 : nextSpi (dropSpi s) = .ok) :
    sendCommand op payload s = .ok (afterWindow .high payload (afterWindow .low [op] s)) := by
  have h3 : nextSpi (afterWindow .low [op] s) = .ok := by
    rw [← h2]; exact nextSpi_congr rfl rfl
  simp only [sendCommand, opcodePhase, csWindow_of_ok _ _ h, if_neg hp, dataPhase, csWindow_of_ok _ _ h3]

/-! ## What a transmission leaves alone -/

/-- The fields no use of a port touches. -/
def PortFrame (s t : State) : Prop :=
  t.planes = s.planes ∧ t.phase = s.phase ∧ t.rst = s.rst ∧ t.res = s.res ∧ t.seq = s.seq ∧ t.requests = s.requests ∧
    t.busyIn = s.busyIn ∧ t.reply = s.reply

theorem PortFrame.trans {s t u : State} (h : PortFrame s t) (k : PortFrame t u) : PortFrame s u := by
  obtain ⟨a1, a2, a3, a4, a5, a6, a7, a8⟩ := h
  obtain ⟨b1, b2, b3, b4, b5, b6, b7, b8⟩ := k
  exact ⟨b1.trans a1, b2.trans a2, b3.trans a3, b4.trans a4, b5.trans a5, b6.trans a6, b7.trans a7, b8.trans a8⟩

theorem afterWindow_frame (dc : Level) (bytes : List Byte) (s : State) : PortFrame s (afterWindow dc bytes s) := by
  simp [PortFrame, afterWindow]

theorem atFailedWindow_frame (dc : Level) (bytes : List Byte) (n : Nat) (s : State) :
    PortFrame s (atFailedWindow dc bytes n s) := by
  simp [PortFrame, atFailedWindow]

/-- What a CS window can do: one of two states, told apart by the environment's answer. -/
theorem csWindow_cases (dc : Level) (bytes : List Byte) (s : State) :
    (nextSpi s = .ok ∧ csWindow dc bytes s = .ok (afterWindow dc bytes s)) ∨
      ∃ n, nextSpi s = .error n ∧ csWindow dc bytes s = .error (atFailedWindow dc bytes n s) := by
  cases h : nextSpi s with
  | ok => exact .inl ⟨rfl, csWindow_of_ok dc bytes h⟩
  | error n => exact .inr ⟨n, rfl, csWindow_of_error dc bytes h⟩

/-- What a command can do: all sent, or a failure of the opcode write, or a failure of the payload write. -/
theorem sendCommand_cases (op : Byte) (payload : List Byte) (s : State) :
    (nextSpi s = .ok ∧ payload = [] ∧ sendCommand op payload s = .ok (afterWindow .low [op] s)) ∨
    (nextSpi s = .ok ∧ payload ≠ [] ∧ nextSpi (dropSpi s) = .ok ∧
      sendCommand op payload s = .ok (afterWindow .high payload (afterWindow .low [op] s))) ∨
    (∃ n, nextSpi s = .error n ∧ sendCommand op payload s = .error (atFailedWindow .low [op] n s)) ∨
    (∃ n, nextSpi s = .ok ∧ payload ≠ [] ∧ nextSpi (dropSpi s) = .error n ∧
      sendCommand op payload s = .error (atFailedWindow .high payload n (afterWindow .low [op] s))) := by
  cases h : nextSpi s with
  | error n => exact .inr (.inr (.inl ⟨n, rfl, sendCommand_of_opcode_error op payload h⟩))
  | ok =>
    by_cases hp : payload = []
    · subst hp; exact .inl ⟨rfl, rfl, sendCommand_nil_of_ok op h⟩
    · cases h2 : nextSpi (dropSpi s) with
      | ok => exact .inr (.inl ⟨rfl, hp, rfl, sendCommand_of_ok op hp h h2⟩)
      | error n => exact .inr (.inr (.inr ⟨n, rfl, hp, rfl, sendCommand_of_payload_error op hp h h2⟩))

/-! ## The busy-wait -/

theorem pollBusy_of_low {w : WaitPoint} {s : State} (h : nextBusy s = .low) :
    pollBusy w s = { dropBusy s with trace := s.trace ++ [.sample .low, .delay 1] } := by
  simp only [pollBusy, h, emit, dropBusy_trace, List.append_assoc, List.cons_append, List.nil_append]

theorem pollBusy_of_high {w : WaitPoint} {s : State} (h : nextBusy s = .high) :
    pollBusy w s = afterWait w { dropBusy s with
      trace := s.trace ++ [.sample .high], work := { s.work with upc := s.work.upc + 1 } } := by
  simp only [pollBusy, h, emit, tick, dropBusy_trace, dropBusy_work]

end Sys2Proof.Machine
end

