-- ==== Sys2Proof/Laws/Step.lean ====
section
/-! SUPPORT. What a step can do, said once: the inversion of the step function and of every meaning it calls. -/

namespace Sys2Proof.Machine

/-! ## The scripts -/

theorem decodeWire_script (site : Site) : decodeWire site (scriptOpcode site) = .ok (siteInstr site) := by
  cases site with
  | init n => revert n; decide
  | update => decide
  | display => decide

theorem siteInstr_config (k : Fin 14) : siteInstr (configSite k) = configInstr k := by revert k; decide

/-- Every position of INIT is the software reset, a table entry, or the power-on command. -/
theorem initSite_cases (n : Fin 16) : n = 0 ∨ (∃ k : Fin 14, Site.init n = configSite k) ∨ n = 15 := by
  revert n; decide

/-! ## The meanings as one shape -/

/-- What follows table entry `k`. -/
def afterConfig (k : Fin 14) (s : State) : State :=
  { s with phase := afterConfigPhase k s.phase, seq := .frame (afterConfigSite k) }

theorem exec_configInstr (k : Fin 14) (s : State) :
    exec (configInstr k) s = atSite (configSite k) (configEntry k (afterConfig k)) s := by
  revert k
  simp only [Fin.forall_fin_succ]
  refine ⟨rfl, rfl, rfl, rfl, rfl, rfl, rfl, rfl, rfl, rfl, rfl, rfl, rfl, rfl, ?_⟩
  intro i; exact i.elim0

/-- The body of the frame at a position. -/
def frameBody : Site → State → State
  | .init n  =>
    if n = 0 then transmit Config.OP_SWRESET [] (goToWait .softwareResetSent .afterSwReset)
    else if h : n.val - 1 < 14 then configEntry ⟨n.val - 1, h⟩ (afterConfig ⟨n.val - 1, h⟩)
    else transmit Config.OP_PON [] (goToWait .poweredOn .afterPowerOn)
  | .update  => frameUpdate
  | .display => transmit Config.OP_DRF [] goToRefreshWait

theorem exec_siteInstr (site : Site) (s : State) : exec (siteInstr site) s = atSite site (frameBody site) s := by
  cases site with
  | update => rfl
  | display => rfl
  | init n =>
    rcases initSite_cases n with rfl | ⟨k, hk⟩ | rfl
    · rfl
    · rw [hk, siteInstr_config, exec_configInstr]
      congr 1
      revert k
      simp only [Fin.forall_fin_succ]
      simp [configSite, frameBody]
    · rfl

theorem atSite_of_at {site : Site} {body : State → State} {s : State} (h : s.seq = .frame site) :
    atSite site body s = .next (body s) := if_pos h

theorem atSite_next_iff {site : Site} {body : State → State} {s t : State} :
    atSite site body s = .next t ↔ s.seq = .frame site ∧ t = body s := by
  unfold atSite
  by_cases h : s.seq = .frame site
  · rw [if_pos h]
    exact ⟨fun e => ⟨h, (Host.Outcome.next.inj e).symm⟩, fun e => congrArg _ e.2.symm⟩
  · rw [if_neg h]
    exact ⟨fun e => (nomatch e), fun e => absurd e.1 h⟩

theorem admitWhen_of_admitted {op : BitVec 3} {ok : Phase → Bool} {body : State → State} {s : State}
    (h : s.seq = .idle) (hp : ok s.phase = true) : admitWhen op ok body s = .next (body (accept op s)) := by
  simp [admitWhen, h, hp]

theorem admitWhen_next_iff {op : BitVec 3} {ok : Phase → Bool} {body : State → State} {s t : State} :
    admitWhen op ok body s = .next t ↔ s.seq = .idle ∧ ok s.phase = true ∧ t = body (accept op s) := by
  unfold admitWhen
  by_cases h : s.seq = .idle
  · by_cases hp : ok s.phase = true
    · rw [if_pos h, if_pos hp]
      exact ⟨fun e => ⟨h, hp, (Host.Outcome.next.inj e).symm⟩, fun e => congrArg _ e.2.2.symm⟩
    · rw [if_pos h, if_neg hp]
      exact ⟨fun e => (nomatch e), fun e => absurd e.2.1 hp⟩
  · rw [if_neg h]
    exact ⟨fun e => (nomatch e), fun e => absurd e.1 h⟩

theorem admitWhen_refused_iff {op : BitVec 3} {ok : Phase → Bool} {body : State → State} {s : State} {r : Refusal}
    (h : s.seq = .idle) :
    admitWhen op ok body s = .refused r ↔ ok s.phase = false ∧ r = .wrongPhase s.phase := by
  unfold admitWhen
  rw [if_pos h]
  by_cases hp : ok s.phase = true
  · rw [if_pos hp]
    exact ⟨fun e => (nomatch e), fun e => absurd e.1 (by simp [hp])⟩
  · rw [if_neg hp]
    exact ⟨fun e => ⟨by simpa using hp, (Host.Outcome.refused.inj e).symm⟩, fun e => congrArg _ e.2.symm⟩

/-! ## The step -/

theorem step_of_idle_none {s : State} (h : s.seq = .idle) (hr : s.requests = []) : step s = .next s := by
  simp only [step, fetch, h, hr]

theorem step_of_idle_cons {s : State} {w : HostWord} {rest : List HostWord} (h : s.seq = .idle)
    (hr : s.requests = w :: rest) :
    step s = match decodeHost w with
      | .ok i => exec i { s with requests := rest }
      | .error e => .refused (refusalOf e) := by
  simp only [step, fetch, h, hr]
  cases hd : decodeHost w <;> simp only [decode, hd]

theorem step_of_wait {s : State} {w : WaitPoint} (h : s.seq = .wait w) : step s = .next (pollBusy w s) := by
  simp only [step, fetch, h]

theorem step_of_frame {s : State} {site : Site} (h : s.seq = .frame site) : step s = exec (siteInstr site) s := by
  simp only [step, fetch, h, decode, decodeWire_script]

theorem step_of_frame_body {s : State} {site : Site} (h : s.seq = .frame site) :
    step s = .next (frameBody site s) := by
  rw [step_of_frame h, exec_siteInstr, atSite_of_at h]

/-- The instructions a host word can decode to. -/
theorem decodeHost_cases {w : HostWord} {i : Instr} (h : decodeHost w = .ok i) :
    i = .clear ∨ i = .drawPixel (xField w).toInt (yField w).toInt (Color.ofCode (colorField w)) ∨ i = .getSize ∨
      i = .init ∨ i = .updateFrames ∨ i = .displayFrame := by
  unfold decodeHost at h
  split at h <;> cases h <;> simp

/-- What a step that goes on did. -/
theorem step_next_cases {s t : State} (h : step s = .next t) :
    (s.seq = .idle ∧ s.requests = [] ∧ t = s) ∨
    (∃ w, s.seq = .wait w ∧ t = pollBusy w s) ∨
    (∃ site, s.seq = .frame site ∧ t = frameBody site s) ∨
    (∃ w rest i, s.seq = .idle ∧ s.requests = w :: rest ∧ decodeHost w = .ok i ∧
      exec i { s with requests := rest } = .next t) := by
  have hs : s.seq = .idle ∨ (∃ w, s.seq = .wait w) ∨ ∃ site, s.seq = .frame site := by
    cases s.seq <;> simp
  rcases hs with hq | ⟨w, hq⟩ | ⟨site, hq⟩
  · rcases hr : s.requests with _ | ⟨w, rest⟩
    · rw [step_of_idle_none hq hr] at h
      exact .inl ⟨hq, rfl, (Host.Outcome.next.inj h).symm⟩
    · rw [step_of_idle_cons hq hr] at h
      cases hd : decodeHost w with
      | ok i => rw [hd] at h; exact .inr (.inr (.inr ⟨w, rest, i, hq, rfl, hd, h⟩))
      | error e => rw [hd] at h; cases h
  · rw [step_of_wait hq] at h
    exact .inr (.inl ⟨w, hq, (Host.Outcome.next.inj h).symm⟩)
  · rw [step_of_frame_body hq] at h
    exact .inr (.inr (.inl ⟨site, hq, (Host.Outcome.next.inj h).symm⟩))

/-- The state after each host operation that is admitted. -/
theorem exec_host_next_cases {w : HostWord} {i : Instr} {s t : State} (hd : decodeHost w = .ok i)
    (h : exec i s = .next t) :
    s.seq = .idle ∧
      (t = clearBuffer (accept 0 s) ∨
       (∃ x y c, t = drawPixel x y c (accept 1 s)) ∨
       t = endOperation RES_OK (some canvasSize) (accept 2 s) ∨
       (s.phase = .uninitialized ∧ t = beginInit (accept 3 s)) ∨
       (s.phase = .ready ∧ t = goToFrame .update (accept 4 s)) ∨
       (s.phase = .ready ∧ t = goToFrame .display (accept 5 s))) := by
  rcases decodeHost_cases hd with rfl | rfl | rfl | rfl | rfl | rfl
  · obtain ⟨h1, -, h2⟩ := admitWhen_next_iff.1 h
    exact ⟨h1, .inl h2⟩
  · obtain ⟨h1, -, h2⟩ := admitWhen_next_iff.1 h
    exact ⟨h1, .inr (.inl ⟨_, _, _, h2⟩)⟩
  · obtain ⟨h1, -, h2⟩ := admitWhen_next_iff.1 h
    exact ⟨h1, .inr (.inr (.inl h2))⟩
  · obtain ⟨h1, hp, h2⟩ := admitWhen_next_iff.1 h
    exact ⟨h1, .inr (.inr (.inr (.inl ⟨of_decide_eq_true hp, h2⟩)))⟩
  · obtain ⟨h1, hp, h2⟩ := admitWhen_next_iff.1 h
    exact ⟨h1, .inr (.inr (.inr (.inr (.inl ⟨of_decide_eq_true hp, h2⟩))))⟩
  · obtain ⟨h1, hp, h2⟩ := admitWhen_next_iff.1 h
    exact ⟨h1, .inr (.inr (.inr (.inr (.inr ⟨of_decide_eq_true hp, h2⟩))))⟩

/-! ## What a command frame leaves alone -/

theorem afterSend_planes {after : State → State} (ha : ∀ u, (after u).planes = u.planes) {s : State}
    {r : Except State State} (hr : ∀ u, r = .ok u ∨ r = .error u → u.planes = s.planes) :
    (afterSend after r).planes = s.planes := by
  cases r with
  | ok u => simp [afterSend, ha, hr u (.inl rfl)]
  | error u => simp [afterSend, hr u (.inr rfl)]

theorem csWindow_frame {dc : Level} {bytes : List Byte} {s u : State}
    (h : csWindow dc bytes s = .ok u ∨ csWindow dc bytes s = .error u) : PortFrame s u := by
  rcases csWindow_cases dc bytes s with ⟨-, hr⟩ | ⟨n, -, hr⟩ <;> rw [hr] at h <;> rcases h with h | h <;> cases h
  · exact afterWindow_frame dc bytes s
  · exact atFailedWindow_frame dc bytes n s

theorem sendCommand_frame {op : Byte} {payload : List Byte} {s u : State}
    (h : sendCommand op payload s = .ok u ∨ sendCommand op payload s = .error u) : PortFrame s u := by
  rcases sendCommand_cases op payload s with ⟨-, -, hr⟩ | ⟨-, -, -, hr⟩ | ⟨n, -, hr⟩ | ⟨n, -, -, -, hr⟩ <;>
    rw [hr] at h <;> rcases h with h | h <;> cases h
  · exact afterWindow_frame ..
  · exact (afterWindow_frame ..).trans (afterWindow_frame ..)
  · exact atFailedWindow_frame ..
  · exact (afterWindow_frame ..).trans (atFailedWindow_frame ..)

theorem transmit_planes {op : Byte} {payload : List Byte} {after : State → State}
    (ha : ∀ u, (after u).planes = u.planes) (s : State) : (transmit op payload after s).planes = s.planes :=
  afterSend_planes ha fun _ hu => (sendCommand_frame hu).1

theorem frameUpdate_of_opcode_error {s : State} {n : Nat} (h : nextSpi s = .error n) :
    frameUpdate s = transferError (atFailedWindow .low [Config.OP_DTM] n s) := by
  unfold frameUpdate opcodePhase
  rw [csWindow_of_error _ _ h]

theorem frameUpdate_of_opcode_ok {s : State} (h : nextSpi s = .ok) :
    frameUpdate s = afterSend complete (sendFrame (afterWindow .low [Config.OP_DTM] s)) := by
  unfold frameUpdate opcodePhase
  rw [csWindow_of_ok _ _ h]

theorem frameUpdate_planes (s : State) : (frameUpdate s).planes = s.planes := by
  cases h : nextSpi s with
  | error n => rw [frameUpdate_of_opcode_error h]; exact (atFailedWindow_frame .low [Config.OP_DTM] n s).1
  | ok =>
    rw [frameUpdate_of_opcode_ok h]
    refine (afterSend_planes (s := afterWindow .low [Config.OP_DTM] s) complete_planes ?_).trans
      (afterWindow_frame .low [Config.OP_DTM] s).1
    intro u hu
    exact (csWindow_frame hu).1

theorem frameBody_planes (site : Site) (s : State) : (frameBody site s).planes = s.planes := by
  cases site with
  | init n =>
    simp only [frameBody]
    split
    · exact transmit_planes (goToWait_planes · _ _) s
    · split
      · rw [configEntry_eq]
        exact transmit_planes (after := afterConfig _) (fun _ => rfl) _
      · exact transmit_planes (goToWait_planes · _ _) s
  | update => exact frameUpdate_planes s
  | display => exact transmit_planes (after := goToRefreshWait) (fun _ => rfl) s

theorem pollBusy_planes (w : WaitPoint) (s : State) : (pollBusy w s).planes = s.planes := by
  cases h : nextBusy s with
  | low => rw [pollBusy_of_low h]; exact dropBusy_planes s
  | high => rw [pollBusy_of_high h]; cases w <;> exact dropBusy_planes s

theorem drawLoaded_planes (s : State) :
    (drawLoaded s).planes = s.planes ∨
      ∃ px : Pixel, (drawLoaded s).planes = drawPlanes (planeIdx px) (planeBit px) s.work.color s.planes := by
  unfold drawLoaded
  split
  · rename_i p _; exact .inr ⟨p, by simp⟩
  · exact .inl rfl

/-- What a step can do to the planes: nothing, a CLEAR, or one draw. -/
theorem step_planes_cases {s t : State} (h : step s = .next t) :
    t.planes = s.planes ∨ t.planes = clearPlanes ∨
      ∃ (px : Pixel) (c : Color), t.planes = drawPlanes (planeIdx px) (planeBit px) c.code s.planes := by
  rcases step_next_cases h with ⟨-, -, rfl⟩ | ⟨w, -, rfl⟩ | ⟨site, -, rfl⟩ | ⟨w, rest, i, -, -, hd, he⟩
  · exact .inl rfl
  · exact .inl (pollBusy_planes w s)
  · exact .inl (frameBody_planes site s)
  · rcases (exec_host_next_cases hd he).2 with rfl | ⟨x, y, c, rfl⟩ | rfl | ⟨-, rfl⟩ | ⟨-, rfl⟩ | ⟨-, rfl⟩
    · exact .inr (.inl rfl)
    · rcases drawLoaded_planes (loadDraw x y c (accept 1 { s with requests := rest })) with hp | ⟨px, hp⟩
      · exact .inl hp
      · exact .inr (.inr ⟨px, c, hp⟩)
    · exact .inl rfl
    · exact .inl rfl
    · exact .inl rfl
    · exact .inl rfl

/-! ## Runs -/

/-- A run goes on from where its first part ends. -/
theorem runFor_add (a b : Nat) {s t : State} (h : runFor a s = .next t) : runFor (a + b) s = runFor b t := by
  induction a generalizing s with
  | zero => cases h; simp
  | succ a ih =>
    rw [Nat.succ_add]
    simp only [runFor] at *
    cases hs : step s with
    | next u => rw [hs] at h; exact ih h
    | fault f => rw [hs] at h; cases h
    | refused r => rw [hs] at h; cases h

theorem runFor_one (s : State) : runFor 1 s = step s := by
  simp only [runFor]
  cases step s <;> rfl

end Sys2Proof.Machine
end

