-- ==== Sys2Proof/Laws/Buffer.lean ====
section
/-! SUPPORT. What DRAW_PIXEL does to a state, in bounds and out of bounds. -/

namespace Sys2Proof.Machine

theorem inRange_of_inBounds {x y : Int} (h : InBounds x y) : CoordInRange x ∧ CoordInRange y := by
  obtain ⟨h1, h2, h3, h4⟩ := h
  exact ⟨⟨by omega, by omega⟩, by omega, by omega⟩

theorem exec_drawPixel {s : State} (h : s.seq = .idle) (x y : Int) (c : Color) :
    exec (.drawPixel x y c) s = .next (drawPixel x y c (accept 1 s)) := admitWhen_of_admitted h rfl

/-- In bounds: the draw at the pixel with those coordinates. -/
theorem drawPixel_of_inBounds {x y : Int} (h : InBounds x y) (c : Color) (s : State) :
    ∃ px : Pixel, (px.x.val : Int) = x ∧ (px.y.val : Int) = y ∧
      drawPixel x y c s = complete (paint (loadAddr px (loadDraw x y c s))) := by
  obtain ⟨hx, hy⟩ := inRange_of_inBounds h
  refine ⟨⟨⟨x.toNat, by omega⟩, ⟨y.toNat, by omega⟩⟩, by simp; omega, by simp; omega, ?_⟩
  unfold drawPixel drawLoaded
  simp only [loadDraw_work, toInt_ofInt_of_inRange hx, toInt_ofInt_of_inRange hy, pixelAt_of_inBounds h]

/-- Out of bounds: nothing but the end of the operation. -/
theorem drawPixel_of_not_inBounds {x y : Int} (hx : CoordInRange x) (hy : CoordInRange y) (h : ¬InBounds x y)
    (c : Color) (s : State) : drawPixel x y c s = complete (loadDraw x y c s) := by
  unfold drawPixel drawLoaded
  simp only [loadDraw_work, toInt_ofInt_of_inRange hx, toInt_ofInt_of_inRange hy, pixelAt_of_not_inBounds h]

@[simp] theorem drawPixel_seq (x y : Int) (c : Color) (s : State) : (drawPixel x y c s).seq = .idle := by
  unfold drawPixel drawLoaded
  split <;> rfl

end Sys2Proof.Machine
end

