-- ==== Sys2Proof/Laws/Encoding.lean ====
section
/-! SUPPORT. The fields of an assembled host word, and the colour codes read back. -/

namespace Sys2Proof

variable (op : BitVec 3) (c : BitVec 2) (x y : BitVec 32)

@[simp] theorem opField_hostWord : opField (hostWord op c x y) = op := by
  ext i hi
  simp only [opField, hostWord, BitVec.getElem_extractLsb', BitVec.getLsbD_append]
  simp [show ¬(66 + i < 32) by omega, show ¬(66 + i - 32 < 32) by omega, show ¬(66 + i - 32 - 32 < 2) by omega,
    show 66 + i - 32 - 32 - 2 = i by omega, BitVec.getLsbD_eq_getElem hi]

@[simp] theorem colorField_hostWord : colorField (hostWord op c x y) = c := by
  ext i hi
  simp only [colorField, hostWord, BitVec.getElem_extractLsb', BitVec.getLsbD_append]
  simp [show ¬(64 + i < 32) by omega, show ¬(64 + i - 32 < 32) by omega,
    show 64 + i - 32 - 32 = i by omega, hi]

@[simp] theorem xField_hostWord : xField (hostWord op c x y) = x := by
  ext i hi
  simp only [xField, hostWord, BitVec.getElem_extractLsb', BitVec.getLsbD_append]
  simp [show ¬(32 + i < 32) by omega, show 32 + i - 32 = i by omega, hi]

@[simp] theorem yField_hostWord : yField (hostWord op c x y) = y := by
  ext i hi
  simp only [yField, hostWord, BitVec.getElem_extractLsb', BitVec.getLsbD_append]
  simp [hi]

/-- A host word is made of its four fields. -/
theorem hostWord_fields (w : HostWord) : hostWord (opField w) (colorField w) (xField w) (yField w) = w := by
  apply BitVec.eq_of_getLsbD_eq
  intro i hi
  simp only [hostWord, opField, colorField, xField, yField, BitVec.getLsbD_append, BitVec.getLsbD_extractLsb']
  split
  · rename_i h; simp [h]
  · split
    · rename_i h1 h2; simp [h2, show 32 + (i - 32) = i by omega]
    · split
      · rename_i h1 h2 h3; simp [h3, show 64 + (i - 32 - 32) = i by omega]
      · rename_i h1 h2 h3
        simp [show 66 + (i - 32 - 32 - 2) = i by omega, show i - 32 - 32 - 2 < 3 by omega]

@[simp] theorem Color.ofCode_code (k : Color) : Color.ofCode k.code = k := by cases k <;> rfl

@[simp] theorem Color.code_ofCode (d : BitVec 2) : (Color.ofCode d).code = d := by revert d; decide

end Sys2Proof
end

