-- ==== Sys2Proof/Laws/PerInstr.lean ====
section
/-! SUPPORT. Per-instruction family TableRow: the encoder gives every instruction the code of its row of
spec/opcode_table.json. -/

namespace Sys2Proof.Laws.TableRow

/-- The row of an instruction: the `op` value of a HOST row (rule R81), the position and byte of a WCMD row (rule R90). -/
inductive Row where
  | host (op : BitVec 3)
  | wire (site : Site) (opcode : Byte)

/-- A code is one of the row's: a host word by its `op` field alone, a wire code by position and byte. -/
def Row.Matches : Row → Code → Prop
  | .host op, .host w        => opField w = op
  | .wire st b, .wire st' b' => st' = st ∧ b' = b
  | .host _, .wire _ _       => False
  | .wire _ _, .host _       => False

/-- The rows of the opcode table. -/
def row : Instr → Row
  | .clear           => .host 0
  | .drawPixel _ _ _ => .host 1
  | .getSize         => .host 2
  | .init            => .host 3
  | .updateFrames    => .host 4
  | .displayFrame    => .host 5
  | .wSwreset        => .wire (.init 0) 0x01
  | .wCfg4d          => .wire (.init 1) 0x4D
  | .wCfg00          => .wire (.init 2) 0x00
  | .wCfg01          => .wire (.init 3) 0x01
  | .wCfg03          => .wire (.init 4) 0x03
  | .wCfg06          => .wire (.init 5) 0x06
  | .wCfg50          => .wire (.init 6) 0x50
  | .wCfg60          => .wire (.init 7) 0x60
  | .wCfg61          => .wire (.init 8) 0x61
  | .wCfgE7          => .wire (.init 9) 0xE7
  | .wCfgE3          => .wire (.init 10) 0xE3
  | .wCfgB4          => .wire (.init 11) 0xB4
  | .wCfgB5          => .wire (.init 12) 0xB5
  | .wCfgE9          => .wire (.init 13) 0xE9
  | .wCfg30          => .wire (.init 14) 0x30
  | .wPon            => .wire (.init 15) 0x04
  | .wDtm            => .wire .update 0x10
  | .wDrf            => .wire .display 0x12

/-- The encoding of the instruction is a code of its row. -/
def Statement (i : Instr) : Prop := (row i).Matches (encode i)

theorem clear : Statement .clear := opField_hostWord ..
theorem drawPixel (x y : Int) (color : Color) : Statement (.drawPixel x y color) := opField_hostWord ..
theorem getSize : Statement .getSize := opField_hostWord ..
theorem init : Statement .init := opField_hostWord ..
theorem updateFrames : Statement .updateFrames := opField_hostWord ..
theorem displayFrame : Statement .displayFrame := opField_hostWord ..
theorem wSwreset : Statement .wSwreset := ⟨rfl, rfl⟩
theorem wCfg4d : Statement .wCfg4d := ⟨rfl, rfl⟩
theorem wCfg00 : Statement .wCfg00 := ⟨rfl, rfl⟩
theorem wCfg01 : Statement .wCfg01 := ⟨rfl, rfl⟩
theorem wCfg03 : Statement .wCfg03 := ⟨rfl, rfl⟩
theorem wCfg06 : Statement .wCfg06 := ⟨rfl, rfl⟩
theorem wCfg50 : Statement .wCfg50 := ⟨rfl, rfl⟩
theorem wCfg60 : Statement .wCfg60 := ⟨rfl, rfl⟩
theorem wCfg61 : Statement .wCfg61 := ⟨rfl, rfl⟩
theorem wCfgE7 : Statement .wCfgE7 := ⟨rfl, rfl⟩
theorem wCfgE3 : Statement .wCfgE3 := ⟨rfl, rfl⟩
theorem wCfgB4 : Statement .wCfgB4 := ⟨rfl, rfl⟩
theorem wCfgB5 : Statement .wCfgB5 := ⟨rfl, rfl⟩
theorem wCfgE9 : Statement .wCfgE9 := ⟨rfl, rfl⟩
theorem wCfg30 : Statement .wCfg30 := ⟨rfl, rfl⟩
theorem wPon : Statement .wPon := ⟨rfl, rfl⟩
theorem wDtm : Statement .wDtm := ⟨rfl, rfl⟩
theorem wDrf : Statement .wDrf := ⟨rfl, rfl⟩

end Sys2Proof.Laws.TableRow
end

