-- ==== Sys2Proof/Laws/Transposer.lean ====
section
/-! SUPPORT. What one turn of each of the transposer's loops computes, and the slots of a frame byte. -/

namespace Sys2Proof.Machine

/-- The coordinate registers of a slot survive their 32 bits. -/
theorem pixelAt_slotCoords (w : WorkRegs) :
    pixelAt (slotCoords w).x.toInt (slotCoords w).y.toInt =
      pixelAt (w.ly.val : Int) (121 - (4 * w.g.val + w.i.val : Nat)) := by
  have hl := w.ly.isLt
  have hg := w.g.isLt
  have hi := w.i.isLt
  have h1 : (slotCoords w).x.toInt = (w.ly.val : Int) := by
    show (BitVec.ofNat 32 w.ly.val).toInt = _
    rw [← BitVec.ofInt_natCast]
    exact toInt_ofInt_of_inRange ⟨by omega, by omega⟩
  have h2 : (slotCoords w).y.toInt = (121 - (4 * w.g.val + w.i.val : Nat) : Int) := by
    show (BitVec.ofInt 32 (121 - (4 * w.g.val + w.i.val : Nat))).toInt = _
    exact toInt_ofInt_of_inRange ⟨by omega, by omega⟩
  rw [h1, h2]

/-- The inner loop shifts the slot's code in. -/
theorem slotStep_eq (pl : Planes) (w : WorkRegs) (i : Fin 4) :
    (slotStep pl w i).ly = w.ly ∧ (slotStep pl w i).g = w.g ∧
      (slotStep pl w i).acc = w.acc <<< 2 ||| (frameSlot pl (32 * w.ly.val + w.g.val) i.val).setWidth 8 := by
  unfold slotStep slotToCode
  rw [pixelAt_slotCoords]
  have hg := w.g.isLt
  unfold frameSlot
  rw [show (32 * w.ly.val + w.g.val) / 32 = w.ly.val by omega, show (32 * w.ly.val + w.g.val) % 32 = w.g.val by omega]
  split <;> rename_i h <;> rw [h] <;> exact ⟨rfl, rfl, rfl⟩

/-- Four codes shifted in from 0 stand beside each other, the first in the most significant bits. -/
theorem pack_codes (a b c d : BitVec 2) :
    ((((((0 : Byte) <<< 2 ||| a.setWidth 8) <<< 2) ||| b.setWidth 8) <<< 2 ||| c.setWidth 8) <<< 2) ||| d.setWidth 8 =
      a ++ b ++ c ++ d := by
  revert a b c d; decide

/-- The middle loop leaves frame byte `32*ly + g` in `acc`. -/
theorem byteStep_eq (pl : Planes) (w : WorkRegs) (g : Fin 32) :
    (byteStep pl w g).ly = w.ly ∧ (byteStep pl w g).acc = frameByte pl (32 * w.ly.val + g.val) := by
  unfold byteStep
  rw [show List.finRange 4 = [0, 1, 2, 3] by decide]
  simp only [List.foldl_cons, List.foldl_nil]
  obtain ⟨a1, b1, c1⟩ := slotStep_eq pl { w with g := g, acc := 0 } 0
  obtain ⟨a2, b2, c2⟩ := slotStep_eq pl (slotStep pl { w with g := g, acc := 0 } 0) 1
  obtain ⟨a3, b3, c3⟩ := slotStep_eq pl (slotStep pl (slotStep pl { w with g := g, acc := 0 } 0) 1) 2
  obtain ⟨a4, b4, c4⟩ := slotStep_eq pl (slotStep pl (slotStep pl (slotStep pl { w with g := g, acc := 0 } 0) 1) 2) 3
  refine ⟨by rw [a4, a3, a2, a1], ?_⟩
  rw [c4, c3, c2, c1, a3, a2, a1, b3, b2, b1]
  exact pack_codes ..

/-- An in-bounds pixel's code stands in its slot. -/
theorem frameSlot_pixel (pl : Planes) (px : Pixel) : frameSlot pl (wireByte px) (wireSlot px) = pixelCode pl px := by
  have hx := px.x.isLt
  have hy := px.y.isLt
  unfold frameSlot
  have e1 : wireByte px / 32 = px.x.val := by unfold wireByte; omega
  have e2 : (121 - (4 * (wireByte px % 32) + wireSlot px : Nat) : Int) = px.y.val := by
    unfold wireByte wireSlot; omega
  rw [e1, e2, pixelAt_coords]

/-- A column from 122 on holds the padding code. -/
theorem frameSlot_pad (pl : Planes) {n i : Nat} (h : 122 ≤ 4 * (n % 32) + i) : frameSlot pl n i = Config.PAD_CODE := by
  unfold frameSlot
  rw [pixelAt_of_not_inBounds (by unfold InBounds; omega)]

end Sys2Proof.Machine
end

