-- ==== Sys2Proof/Tests/Slice0.lean ====
section
/-! SUPPORT. Tests with results taken from spec/95_test_vectors.md and the rules, the check of WellFormed on ill-formed
terms, and for every statement with hypotheses a witness that meets them. -/

namespace Sys2Proof.Tests

open Sys2Proof.Machine

/-! ## Small states -/

/-- An idle block in a phase, with host words to come. -/
def idleIn (p : Phase) (ws : List HostWord) : State := { State.reset with phase := p, requests := ws }

/-- A script that stands at a frame, with answers to its writes. -/
def atFrame (site : Site) (answers : List SpiAnswer) : State :=
  { placeCode (.wire site 0) State.reset with spiIn := answers, rst := .high }

/-- A script that stands at a busy-wait, with answers to its samples. -/
def atWait (w : WaitPoint) (answers : List Level) : State :=
  { State.reset with
    seq    := .wait w
    phase  := waitPhase w
    busyIn := answers
    work   := { resetWork with op := waitOp w, upc := BitVec.ofNat 8 (waitIndex w) } }

/-- One field of a next state. -/
def look {α : Type} (f : State → α) : Host.Outcome State Fault Refusal → Option α
  | .next t    => some (f t)
  | .fault _   => none
  | .refused _ => none

/-- The refusal an outcome ends in. -/
def refusalIn : Host.Outcome State Fault Refusal → Option Refusal
  | .next _    => none
  | .fault _   => none
  | .refused r => some r

/-! ## WellFormed refuses what the host word cannot hold (rule R87) -/

theorem test_wellFormed_refuses_x_above : wellFormed (.drawPixel 2147483648 0 .red) = false := by decide
theorem test_wellFormed_refuses_x_below : wellFormed (.drawPixel (-2147483649) 0 .red) = false := by decide
theorem test_wellFormed_refuses_y_above : wellFormed (.drawPixel 0 2147483648 .red) = false := by decide
theorem test_wellFormed_refuses_y_below : wellFormed (.drawPixel 0 (-2147483649) .red) = false := by decide
theorem test_wellFormed_admits_ends :
    wellFormed (.drawPixel 2147483647 (-2147483648) .black) = true ∧
    wellFormed (.drawPixel (-2147483648) 2147483647 .white) = true := by decide

/-! ## Decoding of words written out from rules R80, R81, R90 -/

/-- V36 and V35: each operation at its match, and fields that are not read. -/
theorem test_decode_host_operations :
    decode (.host 0x000000000000000000) = .ok .clear ∧
    decode (.host 0x04000000050000000A) = .ok (.drawPixel 5 10 .black) ∧
    decode (.host 0x080000000000000000) = .ok .getSize ∧
    decode (.host 0x0C0000000000000000) = .ok .init ∧
    decode (.host 0x100000000000000000) = .ok .updateFrames ∧
    decode (.host 0x140000000000000000) = .ok .displayFrame ∧
    decode (.host 0x0312345678FFFFFFFF) = .ok .clear := by decide

/-- V10: extreme coordinates are signed. -/
theorem test_decode_host_coordinates :
    decode (.host 0x048000000000000000) = .ok (.drawPixel (-2147483648) 0 .black) ∧
    decode (.host 0x047FFFFFFF00000000) = .ok (.drawPixel 2147483647 0 .black) ∧
    decode (.host 0x0400000000FFFFFFFF) = .ok (.drawPixel 0 (-1) .black) ∧
    decode (.host 0x07000000F900000078) = .ok (.drawPixel 249 120 .red) := by decide

/-- V35: reserved operations. -/
theorem test_decode_host_reserved :
    decode (.host 0x180000000000000000) = .error (.reservedOp 6) ∧
    decode (.host 0x1C0000000000000000) = .error (.reservedOp 7) := by decide

/-- Rule R90, each opcode at its position. -/
theorem test_decode_wire_first_half :
    decode (.wire (.init 0) 0x01) = .ok .wSwreset ∧ decode (.wire (.init 1) 0x4D) = .ok .wCfg4d ∧
    decode (.wire (.init 2) 0x00) = .ok .wCfg00 ∧ decode (.wire (.init 3) 0x01) = .ok .wCfg01 ∧
    decode (.wire (.init 4) 0x03) = .ok .wCfg03 ∧ decode (.wire (.init 5) 0x06) = .ok .wCfg06 ∧
    decode (.wire (.init 6) 0x50) = .ok .wCfg50 ∧ decode (.wire (.init 7) 0x60) = .ok .wCfg60 ∧
    decode (.wire (.init 8) 0x61) = .ok .wCfg61 := by decide

theorem test_decode_wire_second_half :
    decode (.wire (.init 9) 0xE7) = .ok .wCfgE7 ∧ decode (.wire (.init 10) 0xE3) = .ok .wCfgE3 ∧
    decode (.wire (.init 11) 0xB4) = .ok .wCfgB4 ∧ decode (.wire (.init 12) 0xB5) = .ok .wCfgB5 ∧
    decode (.wire (.init 13) 0xE9) = .ok .wCfgE9 ∧ decode (.wire (.init 14) 0x30) = .ok .wCfg30 ∧
    decode (.wire (.init 15) 0x04) = .ok .wPon ∧ decode (.wire .update 0x10) = .ok .wDtm ∧
    decode (.wire .display 0x12) = .ok .wDrf := by decide

/-- Rule R93: a byte of the table at another position is no instruction. -/
theorem test_decode_wire_out_of_place :
    decode (.wire (.init 1) 0x01) = .error (.opcodeNotAtSite (.init 1) 0x01) ∧
    decode (.wire .display 0x10) = .error (.opcodeNotAtSite .display 0x10) := by decide

/-- Table words: HOST rows of 69 bits in 9 bytes, WCMD rows of 8 bits, and words of no row. -/
theorem test_decodeTableWord :
    decodeTableWord 72 0x06000000F900000079 = some (.drawPixel 249 121 .yellow) ∧
    decodeTableWord 72 0x180000000000000000 = none ∧ decodeTableWord 72 0x200000000000000000 = none ∧
    decodeTableWord 8 0xE9 = some .wCfgE9 ∧ decodeTableWord 8 0x12 = some .wDrf ∧ decodeTableWord 8 0x02 = none := by
  decide

/-- A table word placed from reset is the instruction the next step runs. -/
theorem test_withFetchWord :
    step (State.reset.withFetchWord 8 0x4D) = exec .wCfg4d (State.reset.withFetchWord 8 0x4D) ∧
    step (State.reset.withFetchWord 8 0x10) = exec .wDtm (State.reset.withFetchWord 8 0x10) ∧
    step (State.reset.withFetchWord 72 0x100000000000000000) =
      exec .updateFrames { State.reset.withFetchWord 72 0x100000000000000000 with requests := [] } := ⟨rfl, rfl, rfl⟩

/-! ## The bitplane store -/

/-- V1. -/
theorem test_clear :
    look (fun t => (t.planes, t.res))
      (exec .clear { State.reset with planes := ⟨[(0, 0x7F)], [(313, 0xFB)], [(3812, 0xBF)]⟩, res := 1 }) =
      some (⟨[], [], []⟩, 0) := by decide

/-- V6 and V5: the bit comes from `x`, not from the linear index. -/
theorem test_drawPixel_bit_of_x :
    look State.planes (exec (.drawPixel 6 1 .yellow) State.reset) = some ⟨[], [], [(32, 0xFD)]⟩ ∧
    look State.planes (exec (.drawPixel 249 121 .yellow) State.reset) = some ⟨[], [], [(3812, 0xBF)]⟩ := by decide

/-- V7 and V9: the second draw removes the colour of the first, also through the alias. -/
theorem test_drawPixel_overwrites :
    look State.planes (exec (.drawPixel 3 0 .yellow) { State.reset with planes := ⟨[], [(0, 0xEF)], []⟩ }) =
      some ⟨[], [], [(0, 0xEF)]⟩ ∧
    look State.planes (exec (.drawPixel 0 1 .white) { State.reset with planes := ⟨[(31, 0x7F)], [], []⟩ }) =
      some ⟨[], [], []⟩ := by decide

/-- V11. -/
theorem test_getSize : look State.reply (exec .getSize State.reset) = some (some (250, 122)) := by decide

/-! ## The pixel encoder and the transposer -/

/-- V8: both pixels of an aliased pair read Black. -/
theorem test_pixelCode_aliased :
    pixelCode ⟨[(31, 0x7F)], [], []⟩ ⟨248, 0⟩ = 0 ∧ pixelCode ⟨[(31, 0x7F)], [], []⟩ ⟨0, 1⟩ = 0 := by decide

/-- V19: four colours in frame byte 224. -/
theorem test_frame_byte_four_colours :
    (byteStep ⟨[(3782, 0xFE)], [(3688, 0xFE)], [(3719, 0xFE)]⟩ { resetWork with ly := 7 } 0).acc = 0x1B := by decide

/-- V15, V16 and rule R191: frame bytes 187, 30 and, on a clear buffer, 31. -/
theorem test_frame_bytes :
    frameByte ⟨[(313, 0xFB)], [], []⟩ 187 = 0x54 ∧ frameByte ⟨[], [(0, 0x7F)], []⟩ 30 = 0x7A ∧
    frameByte clearPlanes 31 = 0xAA := by decide

/-- Rule R211: the opcode write of W_DTM fails; the phase stays `Ready` and CS stays low (V33 a). -/
theorem test_wDtm_fails :
    look (fun t => (t.trace, t.res, t.phase, t.cs)) (exec .wDtm (atFrame .update [.error 0])) =
      some ([.drive .dc .low, .drive .cs .low, .spiWrite [0x10] .error], 1, .ready, .low) := by decide

/-! ## The command protocol -/

/-- One field of the state a transmission leaves. -/
def sentField {α : Type} (f : State → α) : Except State State → α
  | .ok t    => f t
  | .error t => f t

/-- V24. -/
theorem test_sendCommand_two_windows :
    sentField (fun t => (t.trace, t.dc, t.cs))
      (sendCommand 0x61 [0xAA, 0xBB] { State.reset with spiIn := [.ok, .ok] }) =
      ([.drive .dc .low, .drive .cs .low, .spiWrite [0x61] .ok, .drive .cs .high,
        .drive .dc .high, .drive .cs .low, .spiWrite [0xAA, 0xBB] .ok, .drive .cs .high], .high, .high) := by decide

/-- V25, the second write failing after one byte. -/
theorem test_sendCommand_payload_fails :
    sentField (fun t => (t.trace.length, t.wire, t.dc, t.cs))
      (sendCommand 0x61 [0xAA, 0xBB] { State.reset with spiIn := [.ok, .error 1] }) =
      (7, [(.low, 0x61), (.high, 0xAA)], .high, .low) := by decide

/-- V27, its first turn and its last. -/
theorem test_busyWait_turns :
    look State.trace (step (atWait .afterSwReset [.low, .high])) = some [.sample .low, .delay 1] ∧
    look (fun t => (t.trace, t.seq)) (step (atWait .afterSwReset [.high])) =
      some ([.sample .high], .frame (.init 1)) := by decide

/-! ## INIT and its commands -/

/-- V29: INIT begins with the four events of the reset pulse. -/
theorem test_init_pulse :
    look (fun t => (t.trace, t.phase, t.seq)) (exec .init State.reset) =
      some ([.drive .rst .low, .delay 10, .drive .rst .high, .delay 10], .resetPulsed, .wait .afterReset) := by decide

/-- V35: INIT in `Ready`, UPDATE_FRAMES and DISPLAY_FRAME in `Uninitialized`. -/
theorem test_wrong_phase :
    refusalIn (exec .init (idleIn .ready [])) = some (.wrongPhase .ready) ∧
    refusalIn (exec .updateFrames State.reset) = some (.wrongPhase .uninitialized) ∧
    refusalIn (exec .displayFrame State.reset) = some (.wrongPhase .uninitialized) := by decide

/-- Events 6 to 9 of V30. -/
theorem test_wSwreset :
    look (fun t => (t.trace, t.phase, t.seq)) (exec .wSwreset (atFrame (.init 0) [.ok])) =
      some ([.drive .dc .low, .drive .cs .low, .spiWrite [0x01] .ok, .drive .cs .high],
        .softwareResetSent, .wait .afterSwReset) := by decide

/-- Rule R171 at each configuration command's opcode write: the opcode of rule R11's list, `Uninitialized`. -/
theorem test_config_opcodes :
    (List.finRange 14).map
      (fun k => look (fun t => (t.trace, t.phase)) (exec (configInstr k) (atFrame (configSite k) [.error 0]))) =
    ([0x4D, 0x00, 0x01, 0x03, 0x06, 0x50, 0x60, 0x61, 0xE7, 0xE3, 0xB4, 0xB5, 0xE9, 0x30] : List Byte).map
      (fun b => some ([.drive .dc .low, .drive .cs .low, .spiWrite [b] .error], .uninitialized)) := by decide

/-- With every answer `ok` a configuration command completes, whatever its payload, and the script goes on. -/
theorem config_completes (k : Fin 14) (s : State) (h : s.seq = .frame (configSite k)) (hok : ∀ a ∈ s.spiIn, a = .ok)
    (hl : 2 ≤ s.spiIn.length) :
    ∃ t, exec (configInstr k) s = .next t ∧ t.seq = .frame (afterConfigSite k) ∧ t.busyIn = s.busyIn ∧
      t.requests = s.requests ∧ (∀ a ∈ t.spiIn, a = .ok) ∧ s.spiIn.length ≤ t.spiIn.length + 2 := by
  obtain ⟨a, b, q, hq⟩ : ∃ a b q, s.spiIn = a :: b :: q := by
    match hs : s.spiIn with
    | [] => simp [hs] at hl
    | [_] => simp [hs] at hl
    | a :: b :: q => exact ⟨a, b, q, rfl⟩
  obtain rfl : a = .ok := hok a (by simp [hq])
  obtain rfl : b = .ok := hok b (by simp [hq])
  have h1 : nextSpi (loadEntry k s) = .ok := nextSpi_cons hq
  have h2 : nextSpi (dropSpi (loadEntry k s)) = .ok :=
    nextSpi_cons (q := q) (by simp [dropSpi_eq, hq])
  rw [exec_configInstr, atSite_of_at h]
  refine ⟨_, rfl, ?_⟩
  rw [configEntry_eq]
  unfold transmit
  by_cases hp : Config.cfgPayload k = []
  · simp only [hp, sendCommand_nil_of_ok _ h1, afterSend]
    refine ⟨rfl, by simp [afterConfig, afterWindow], by simp [afterConfig, afterWindow], ?_, ?_⟩
    · intro x hx
      exact hok x (by rw [hq]; simp [afterConfig, afterWindow, dropSpi_eq, hq] at hx; simp [hx])
    · simp [afterConfig, afterWindow, dropSpi_eq, hq]
  · simp only [sendCommand_of_ok _ hp h1 h2, afterSend]
    refine ⟨rfl, by simp [afterConfig, afterWindow], by simp [afterConfig, afterWindow], ?_, ?_⟩
    · intro x hx
      exact hok x (by rw [hq]; simp [afterConfig, afterWindow, dropSpi_eq, hq] at hx; simp [hx])
    · simp [afterConfig, afterWindow, dropSpi_eq, hq]

/-- Rule R168: the last configuration command is followed by W_PON with no busy-wait, whatever its payload. -/
theorem test_wCfg30_then_wPon :
    look State.seq (exec .wCfg30 (atFrame (.init 14) [.ok, .ok])) = some (.frame (.init 15)) := by
  obtain ⟨t, h, hs, -⟩ := config_completes 13 (atFrame (.init 14) [.ok, .ok]) rfl (by decide) (by decide)
  rw [show exec .wCfg30 (atFrame (.init 14) [.ok, .ok]) = .next t from h]
  exact congrArg some hs

/-- V23 and rule R151. -/
theorem test_wPon :
    look (fun t => (t.trace, t.phase, t.seq)) (exec .wPon (atFrame (.init 15) [.ok])) =
      some ([.drive .dc .low, .drive .cs .low, .spiWrite [0x04] .ok, .drive .cs .high],
        .poweredOn, .wait .afterPowerOn) := by decide

/-! ## DISPLAY_FRAME -/

/-- V34 (a), its first four events. -/
theorem test_wDrf :
    look (fun t => (t.trace, t.phase, t.seq)) (exec .wDrf (atFrame .display [.ok])) =
      some ([.drive .dc .low, .drive .cs .low, .spiWrite [0x12] .ok, .drive .cs .high],
        .ready, .wait .afterRefresh) := by decide

/-- V34 (a), its last event: the operation ends with `res` 0 in `Ready`. -/
theorem test_displayFrame_ends :
    look (fun t => (t.trace, t.res, t.phase, t.seq)) (step { atWait .afterRefresh [.high] with res := 1 }) =
      some ([.sample .high], 0, .ready, .idle) := by decide

/-! ## Witnesses: states and operands that meet the hypotheses of the statements -/

/-- A whole INIT on a block whose environment answers `ok` to every write and `high` to every sample. -/
def initStart : State := { State.reset with busyIn := [.high, .high, .high], spiIn := List.replicate 30 .ok }

theorem configs_complete (n : Nat) (hn : n ≤ 14) (s : State) (h : s.seq = .frame (.init 1))
    (hok : ∀ a ∈ s.spiIn, a = .ok) (hl : 2 * n ≤ s.spiIn.length) :
    ∃ t, runFor n s = .next t ∧ t.seq = .frame (.init ⟨n + 1, by omega⟩) ∧ t.busyIn = s.busyIn ∧
      t.requests = s.requests ∧ (∀ a ∈ t.spiIn, a = .ok) ∧ s.spiIn.length ≤ t.spiIn.length + 2 * n := by
  induction n with
  | zero => exact ⟨s, rfl, h, rfl, rfl, hok, by omega⟩
  | succ n ih =>
    obtain ⟨t, h1, h2, h3, h4, h5, h6⟩ := ih (by omega) (by omega)
    obtain ⟨u, k1, k2, k3, k4, k5, k6⟩ := config_completes ⟨n, by omega⟩ t h2 h5 (by omega)
    have hst : step t = .next u := by
      rw [step_of_frame (site := configSite ⟨n, by omega⟩) h2, siteInstr_config]; exact k1
    exact ⟨u, by rw [runFor_add n 1 h1, runFor_one, hst], k2, k3.trans h3, k4.trans h4, k5, by omega⟩

/-- SuccessfulInitSendsTheTable: a run of INIT that ends in `Ready` exists. -/
theorem witness_SuccessfulInitSendsTheTable :
    initStart.requests = [] ∧
    ∃ t u n, exec .init initStart = .next t ∧ runFor n t = .next u ∧ u.seq = .idle ∧ u.phase = .ready := by
  refine ⟨rfl, ?_⟩
  obtain ⟨t, ht⟩ : ∃ t, exec .init initStart = .next t := ⟨_, rfl⟩
  obtain ⟨a, h1, ha⟩ : ∃ a, runFor 3 t = .next a ∧
      a.seq = .frame (.init 1) ∧ a.spiIn = List.replicate 29 .ok ∧ a.busyIn = [.high] := by
    cases ht
    exact ⟨_, rfl, rfl, rfl, rfl⟩
  obtain ⟨ha1, ha2, ha3⟩ := ha
  obtain ⟨b, h2, hb1, hb2, -, hb3, hb4⟩ := configs_complete 14 (by omega) a ha1
    (by rw [ha2]; exact fun x hx => List.eq_of_mem_replicate hx) (by rw [ha2]; simp)
  have hb5 : nextSpi b = .ok := by
    match hq : b.spiIn with
    | [] => rw [hq, ha2] at hb4; simp at hb4
    | x :: q => rw [nextSpi_cons hq]; exact hb3 x (by simp [hq])
  obtain ⟨c, h3, hc1, hc2⟩ : ∃ c, step b = .next c ∧ c.seq = .wait .afterPowerOn ∧ c.busyIn = [.high] := by
    refine ⟨_, (step_of_frame (site := .init 15) hb1).trans (atSite_of_at hb1), ?_⟩
    simp only [transmit, sendCommand_nil_of_ok _ hb5, afterSend]
    exact ⟨rfl, by simp [goToWait, afterWindow, hb2, ha3]⟩
  have h4 := (step_of_wait hc1).trans (congrArg Host.Outcome.next (pollBusy_of_high (nextBusy_cons hc2)))
  exact ⟨t, _, 3 + (14 + (1 + 1)), ht, by
    rw [runFor_add 3 _ h1, runFor_add 14 _ h2, runFor_add 1 1 ((runFor_one b).trans h3), runFor_one, h4], rfl, rfl⟩

/-- InitTraceOpcodeSequence: the same run. -/
theorem witness_InitTraceOpcodeSequence :
    initStart.requests = [] ∧
    ∃ t u n, exec .init initStart = .next t ∧ runFor n t = .next u ∧ u.seq = .idle ∧ u.phase = .ready :=
  witness_SuccessfulInitSendsTheTable

theorem witness_DecodeOfEncode :
    WellFormed (.drawPixel (-2147483648) 2147483647 .red) ∧ WellFormed (.drawPixel 249 121 .black) ∧
    WellFormed .init ∧ WellFormed .wCfg01 := by decide

theorem witness_DecodedIsEncodable :
    decode (.host 0x0400000000FFFFFFFF) = .ok (.drawPixel 0 (-1) .black) ∧
    decode (.host 0x0312345678FFFFFFFF) = .ok .clear ∧ decode (.wire (.init 15) 0x04) = .ok .wPon := by decide

theorem witness_StepRunsHostInstruction :
    (idleIn .ready [0x100000000000000000]).seq = .idle ∧
    (idleIn .ready [0x100000000000000000]).requests = [0x100000000000000000] ∧
    decode (.host 0x100000000000000000) = .ok .updateFrames := by decide

theorem witness_StepRunsScriptInstruction :
    (atFrame (.init 3) []).seq = .frame (.init 3) ∧ (atFrame .display []).seq = .frame .display := by decide

theorem witness_StepIdlesOrPolls :
    (State.reset.seq = .idle ∧ State.reset.requests = []) ∧ (atWait .afterRefresh []).seq = .wait .afterRefresh := by
  decide

/-- RefusedExactlyWhenTheSpecRefuses: each of its kinds happens (V35). -/
theorem witness_RefusedExactlyWhenTheSpecRefuses :
    refusalIn (step (idleIn .ready [0x180000000000000000])) = some (.reservedOp 6) ∧
    refusalIn (step (idleIn .uninitialized [0x1C0000000000000000])) = some (.reservedOp 7) ∧
    refusalIn (step (idleIn .ready [0x0C0000000000000000])) = some (.wrongPhase .ready) ∧
    refusalIn (step (idleIn .uninitialized [0x100000000000000000])) = some (.wrongPhase .uninitialized) ∧
    refusalIn (step (idleIn .uninitialized [0x140000000000000000])) = some (.wrongPhase .uninitialized) := by decide

theorem witness_OutOfPlaceIsRefused :
    State.reset.seq ≠ .frame (.init 0) ∧ (atFrame (.init 0) []).seq ≠ .frame (.init 3) ∧
    (atWait .afterReset []).seq ≠ .idle ∧ decode (.host 0x0C0000000000000000) = .ok .init := by decide

theorem witness_ClearSetsEveryByte :
    opField 0x0312345678FFFFFFFF = 0 ∧ (idleIn .ready []).seq = .idle ∧ State.reset.seq = .idle := by decide

theorem witness_DrawInBoundsSetsOnePosition :
    State.reset.seq = .idle ∧ PlanesCanonical State.reset ∧ InBounds 0 0 ∧ InBounds 249 121 :=
  ⟨rfl, clearPlanes_wf, by decide, by decide⟩

/-- DrawOutOfBoundsIsDropped: each clause of the condition alone, at its nearest value (rule R113). -/
theorem witness_DrawOutOfBoundsIsDropped :
    State.reset.seq = .idle ∧ WellFormed (.drawPixel (-1) 0 .red) ∧ WellFormed (.drawPixel 0 (-1) .red) ∧
    WellFormed (.drawPixel 250 121 .red) ∧ WellFormed (.drawPixel 249 122 .red) := by decide

theorem witness_GetSizeReturnsTheCanvas :
    opField 0x080000000000000000 = 2 ∧ (idleIn .ready []).seq = .idle := by decide

/-- DrawIsIdempotent and LastDrawWins: in bounds and out of bounds. -/
theorem witness_LastDrawWins :
    State.reset.seq = .idle ∧ PlanesCanonical State.reset ∧ WellFormed (.drawPixel 3 0 .red) ∧
    WellFormed (.drawPixel 250 0 .red) ∧ pixelAt 3 0 = some ⟨3, 0⟩ :=
  ⟨rfl, clearPlanes_wf, by decide, by decide, by decide⟩

theorem witness_DrawIsIdempotent :
    State.reset.seq = .idle ∧ PlanesCanonical State.reset ∧ WellFormed (.drawPixel 5 10 .black) :=
  ⟨rfl, clearPlanes_wf, by decide⟩

/-- DrawListAppliesInOrder: a list with an element in bounds and one out of bounds, and a word after it. -/
theorem witness_DrawListAppliesInOrder :
    (idleIn .ready [0x070000000300000000, 0x07000000FA00000000, 0]).seq = .idle ∧
    (∀ d ∈ [((3 : Int), (0 : Int), Color.red), (250, 0, .red)], WellFormed (.drawPixel d.1 d.2.1 d.2.2)) ∧
    (idleIn .ready [0x070000000300000000, 0x07000000FA00000000, 0]).requests =
      [((3 : Int), (0 : Int), Color.red), (250, 0, .red)].map
        (fun d => hostWord 1 d.2.2.code (BitVec.ofInt 32 d.1) (BitVec.ofInt 32 d.2.1)) ++ [0] := by decide

/-- BlackAtOriginClearsBitSeven and SingleBlackPixelFrame: reset leaves the planes of a clear buffer. -/
theorem witness_BlackAtOriginClearsBitSeven : State.reset.seq = .idle ∧ State.reset.planes = clearPlanes := by decide

theorem witness_SingleBlackPixelFrame : (idleIn .ready []).seq = .idle ∧ (idleIn .ready []).planes = clearPlanes := by
  decide

theorem witness_ClearThenEveryPixelIsWhite : (atFrame .update []).seq ≠ .idle ∧ State.reset.seq = .idle := by decide

/-- PixelsThatShareABit: its condition at the first and the last pair of rule R57, and a row without one. -/
theorem witness_PixelsThatShareABit :
    (⟨248, 0⟩ : Pixel) ≠ ⟨0, 1⟩ ∧ SharesBit ⟨248, 0⟩ ⟨0, 1⟩ ∧ SharesBit ⟨249, 120⟩ ⟨1, 121⟩ ∧
    ¬SharesBit ⟨248, 3⟩ ⟨0, 4⟩ := by
  unfold SharesBit
  decide

theorem witness_DrawColoursTheSharingPixels :
    State.reset.seq = .idle ∧ PlanesCanonical State.reset ∧ SharesBit ⟨248, 0⟩ ⟨0, 1⟩ ∧
    ¬SharesBit ⟨248, 0⟩ ⟨1, 1⟩ :=
  ⟨rfl, clearPlanes_wf, by unfold SharesBit; decide, by unfold SharesBit; decide⟩

theorem witness_PixelCodePriority :
    (31 : Fin 3813).val = ((0 : Fin 122).val * 250 + (248 : Fin 250).val) / 8 ∧
    (7 : Fin 8).val = 7 - (248 : Fin 250).val % 8 := by decide

/-- FrameSlotsHoldPixelCodes: the first and the last padding column of the first and the last driver row. -/
theorem witness_FrameSlotsHoldPixelCodes :
    (0 < 250 ∧ 122 ≤ 122 ∧ 122 < 128) ∧ (249 < 250 ∧ 122 ≤ 127 ∧ 127 < 128) := by decide

/-- EachValidSlotHasOnePixel: the last valid and the first padding slot of byte 30. -/
theorem witness_EachValidSlotHasOnePixel :
    30 < 8000 ∧ 1 < 4 ∧ 4 * (30 % 32) + 1 ≤ 121 ∧ 2 < 4 ∧ 122 ≤ 4 * (30 % 32) + 2 := by decide

theorem witness_PaddingIsYellow : 0 < 250 ∧ 249 < 250 := by decide

theorem witness_SharingPixelsLookAlikeOnTheWire : SharesBit ⟨249, 0⟩ ⟨1, 1⟩ := by
  unfold SharesBit
  decide

/-- SendCommandEvents: each of its three cases. -/
theorem witness_SendCommandEvents :
    WritesOk [0xAA] { State.reset with spiIn := [.ok, .ok] } ∧ WritesOk [] { State.reset with spiIn := [.ok] } ∧
    nextSpi { State.reset with spiIn := [.error 0] } = .error 0 ∧
    ([0xAA] : List Byte) ≠ [] ∧ nextSpi { State.reset with spiIn := [.ok, .error 1] } = .ok ∧
    nextSpi (dropSpi { State.reset with spiIn := [.ok, .error 1] }) = .error 1 :=
  ⟨⟨rfl, fun _ => rfl⟩, ⟨rfl, fun h => absurd rfl h⟩, rfl, by decide, rfl, rfl⟩

theorem witness_OpcodeOnlyCommandsComplete :
    nextSpi (atFrame (.init 0) [.ok]) = .ok ∧ (atFrame (.init 0) [.ok]).seq = .frame (.init 0) ∧
    nextSpi (atFrame (.init 15) [.ok]) = .ok ∧ (atFrame (.init 15) [.ok]).seq = .frame (.init 15) ∧
    nextSpi (atFrame .display [.ok]) = .ok ∧ (atFrame .display [.ok]).seq = .frame .display := by decide

/-- ConfigCommandsComplete: for every table entry. -/
theorem witness_ConfigCommandsComplete (k : Fin 14) :
    (atFrame (configSite k) [.ok, .ok]).seq = .frame (configSite k) ∧
    WritesOk (Config.cfgPayload k) (atFrame (configSite k) [.ok, .ok]) := ⟨rfl, rfl, fun _ => rfl⟩

theorem witness_FrameCommandCompletes :
    (atFrame .update [.ok, .ok]).seq = .frame .update ∧ nextSpi (atFrame .update [.ok, .ok]) = .ok ∧
    nextSpi (dropSpi (atFrame .update [.ok, .ok])) = .ok := by decide

/-- OpcodeWriteFailureFaults: at every position. -/
theorem witness_OpcodeWriteFailureFaults (site : Site) :
    (atFrame site [.error 0]).seq = .frame site ∧ nextSpi (atFrame site [.error 0]) = .error 0 := ⟨rfl, rfl⟩

/-- PayloadWriteFailureFaults: for every table entry. -/
theorem witness_PayloadWriteFailureFaults (k : Fin 14) :
    (atFrame (configSite k) [.ok, .error 2]).seq = .frame (configSite k) ∧
    nextSpi (atFrame (configSite k) [.ok, .error 2]) = .ok ∧
    nextSpi (dropSpi (atFrame (configSite k) [.ok, .error 2])) = .error 2 := ⟨rfl, rfl, rfl⟩

theorem witness_FrameWriteFailureFaults :
    (atFrame .update [.ok, .error 4000]).seq = .frame .update ∧
    nextSpi (atFrame .update [.ok, .error 4000]) = .ok ∧
    nextSpi (dropSpi (atFrame .update [.ok, .error 4000])) = .error 4000 := by decide

/-- BusyWaitEndsAtFirstHigh: no `low`, and two (rule R139's example). -/
theorem witness_BusyWaitEndsAtFirstHigh :
    (atWait .afterReset [.high]).busyIn = waitAnswers 0 ++ [] ∧
    (atWait .afterRefresh [.low, .low, .high, .low]).busyIn = waitAnswers 2 ++ [.low] ∧
    (atWait .afterRefresh [.low, .low, .high, .low]).busyIn = List.replicate 2 .low ++ [.high, .low] ∧
    (atWait .afterRefresh [.low, .low, .high, .low]).seq = .wait .afterRefresh := by decide

theorem witness_StuckBusyLineHangs :
    (atWait .afterPowerOn [.low, .low]).seq = .wait .afterPowerOn ∧
    ∀ m u, m < 2 → runFor m (atWait .afterPowerOn [.low, .low]) = .next u → nextBusy u = .low := by
  refine ⟨rfl, fun m u hm h => ?_⟩
  match m, hm with
  | 0, _ => cases h; rfl
  | 1, _ => cases h; rfl

theorem witness_InitBeginsWithResetPulse : State.reset.seq = .idle ∧ State.reset.phase = .uninitialized := by decide

theorem witness_InitRunsToReady :
    initStart.seq = .idle ∧ initStart.phase = .uninitialized ∧
    initStart.busyIn = waitAnswers 0 ++ waitAnswers 0 ++ waitAnswers 0 ++ [] ∧
    initStart.spiIn = List.replicate 30 .ok ++ [] := by decide

/-- InitScriptLength: waits of no, one and two samples `low`, and a sample left over. -/
theorem witness_InitScriptLength :
    let s := { initStart with busyIn := [.high, .low, .high, .low, .low, .high, .low] }
    s.seq = .idle ∧ s.phase = .uninitialized ∧
    s.busyIn = waitAnswers 0 ++ waitAnswers 1 ++ waitAnswers 2 ++ [.low] ∧
    s.spiIn = List.replicate 30 .ok ++ [] := by decide

theorem witness_UpdateFramesRuns :
    (idleIn .ready []).seq = .idle ∧ (idleIn .ready []).phase = .ready ∧
    nextSpi { idleIn .ready [] with spiIn := [.ok, .ok] } = .ok ∧
    nextSpi (dropSpi { idleIn .ready [] with spiIn := [.ok, .ok] }) = .ok := by decide

/-- DisplayFrameRuns: answers `low, high` (V34 b). -/
def displayStart : State := { idleIn .ready [] with busyIn := [.low, .high], spiIn := [.ok] }

theorem witness_DisplayFrameRuns :
    displayStart.seq = .idle ∧ displayStart.phase = .ready ∧ displayStart.busyIn = waitAnswers 1 ++ [] ∧
    displayStart.spiIn = .ok :: [] := by decide

theorem witness_DisplayFrameFails :
    (idleIn .ready []).seq = .idle ∧ (idleIn .ready []).phase = .ready ∧
    nextSpi { idleIn .ready [] with spiIn := [.error 1] } = .error 1 := by decide

/-- A step from `idleIn .ready [DRAW_PIXEL 5, 10, Black]`, for the statements about every step. -/
theorem witness_step_of_draw :
    PlanesCanonical (idleIn .ready [0x04000000050000000A]) ∧ ColoursExclusive (idleIn .ready [0x04000000050000000A]) ∧
    UnusedBitsSet (idleIn .ready [0x04000000050000000A]) ∧ ControlAgrees (idleIn .ready [0x04000000050000000A]) ∧
    ∃ t, step (idleIn .ready [0x04000000050000000A]) = .next t ∧ t.planes ≠ clearPlanes :=
  ⟨clearPlanes_wf,
    fun idx bit => by
      rw [show (idleIn .ready [0x04000000050000000A]).planes = clearPlanes from rfl, bitsAt_clearPlanes]; decide,
    fun idx bit _ => bitsAt_clearPlanes idx bit, .inr rfl, _, rfl, by decide⟩

/-- A step inside INIT that meets the invariants of the sequencer. -/
theorem witness_step_of_frame :
    ControlAgrees (atFrame (.init 0) [.ok]) ∧ ResetLineReleased (atFrame (.init 0) [.ok]) ∧
    ∃ t, step (atFrame (.init 0) [.ok]) = .next t :=
  ⟨⟨rfl, rfl, rfl⟩, fun _ => rfl, _, rfl⟩

/-- ReadyIsNeverLeft: a frame of UPDATE_FRAMES that faults. -/
theorem witness_ReadyIsNeverLeft :
    ControlAgrees (atFrame .update [.error 0]) ∧ (atFrame .update [.error 0]).phase = .ready ∧
    ∃ t, step (atFrame .update [.error 0]) = .next t :=
  ⟨⟨rfl, rfl, rfl⟩, rfl, _, rfl⟩

/-- StepKeepsResetLineReleased: after a failed INIT (idle, `Uninitialized`, RST high) the next INIT's step. -/
theorem witness_StepKeepsResetLineReleased :
    { idleIn .uninitialized [0x0C0000000000000000] with rst := .high }.rst = .high ∧
    ResetLineReleased { idleIn .uninitialized [0x0C0000000000000000] with rst := .high } ∧
    ∃ t, step { idleIn .uninitialized [0x0C0000000000000000] with rst := .high } = .next t :=
  ⟨rfl, fun _ => rfl, _, rfl⟩

/-- OnlyScriptOpcodesAreWritten: a step at a position and one at none. -/
theorem witness_OnlyScriptOpcodesAreWritten :
    (atFrame .display [.ok]).seq = .frame .display ∧ (∃ t, step (atFrame .display [.ok]) = .next t) ∧
    (∀ site, State.reset.seq ≠ .frame site) ∧ (∃ t, step State.reset = .next t) ∧
    [Event.drive .cs .high, .drive .dc .high, .drive .cs .low, .spiWrite [0xAA] .ok, .drive .cs .high] =
      [.drive .cs .high, .drive .dc .high, .drive .cs .low] ++ .spiWrite [0xAA] .ok :: [.drive .cs .high] :=
  ⟨rfl, ⟨_, rfl⟩, fun _ h => (nomatch h), ⟨_, rfl⟩, rfl⟩

end Sys2Proof.Tests
end

