-- ==== Sys2Proof/Proofs/InitTrace.lean ====
section
/-! PROOF. The opcode sequence of a successful INIT (rules R16, R170): how opcode sequences of event lists compose, what
each step of INIT's script can do, and the invariant of an INIT run that follows. -/

namespace Sys2Proof.Machine

/-! ## Opcode sequences of event lists -/

/-- The opcode sequence of `events` is `ops`, whatever level DC was driven to before them. -/
def SendsOpcodes (events : List Event) (ops : List Byte) : Prop := ∀ dc, opcodeSequence dc events = ops

/-- Events put in front add their own opcodes and leave DC at some level for the rest. -/
theorem opcodeSequence_append (dc : Level) (es : List Event) :
    ∃ dc', ∀ fs, opcodeSequence dc (es ++ fs) = opcodeSequence dc es ++ opcodeSequence dc' fs := by
  induction dc, es using opcodeSequence.induct with
  | case1 d => exact ⟨d, fun _ => rfl⟩
  | case5 bytes es ih =>
    obtain ⟨dc', h⟩ := ih
    exact ⟨dc', fun fs => by simp [opcodeSequence, h]⟩
  | _ => -- an event that sends no opcode: the hypothesis for the events after it is the goal
    simp [opcodeSequence, *]

theorem SendsOpcodes.append {es fs : List Event} {as bs : List Byte} (h : SendsOpcodes es as)
    (k : SendsOpcodes fs bs) : SendsOpcodes (es ++ fs) (as ++ bs) := by
  intro dc
  obtain ⟨dc', happ⟩ := opcodeSequence_append dc es
  rw [happ fs, h dc, k dc']

theorem sendsOpcodes_pulse : SendsOpcodes pulseEvents [] := fun dc => by cases dc <;> rfl

theorem sendsOpcodes_lowTurn : SendsOpcodes [.sample .low, .delay 1] [] := fun dc => by cases dc <;> rfl

theorem sendsOpcodes_sampleHigh : SendsOpcodes [.sample .high] [] := fun dc => by cases dc <;> rfl

/-- A command sends its opcode alone: the payload goes out with DC high. -/
theorem sendsOpcodes_command (op : Byte) (payload : List Byte) : SendsOpcodes (commandEvents op payload) [op] := by
  intro dc
  by_cases hp : payload = [] <;> simp [commandEvents, windowEvents, opcodeSequence, hp]

/-! ## What a step of INIT's script can do -/

/-- What a transmission can do: the whole command is sent and the script goes on, or TransferError is taken. -/
theorem transmit_cases (op : Byte) (payload : List Byte) (after : State → State) (s : State) :
    (∃ u, PortFrame s u ∧ u.trace = s.trace ++ commandEvents op payload ∧ u.wire = s.wire ++ commandWire op payload ∧
      transmit op payload after s = after u) ∨
    ∃ u, PortFrame s u ∧ transmit op payload after s = transferError u := by
  unfold transmit
  rcases sendCommand_cases op payload s with ⟨-, hp, hr⟩ | ⟨-, hp, -, hr⟩ | ⟨n, -, hr⟩ | ⟨n, -, -, -, hr⟩
  · exact .inl ⟨_, sendCommand_frame (.inl hr), by simp [afterWindow, commandEvents, hp],
      by simp [afterWindow, commandWire, hp], by rw [hr]; rfl⟩
  · exact .inl ⟨_, sendCommand_frame (.inl hr), by simp [afterWindow, commandEvents, hp],
      by simp [afterWindow, commandWire], by rw [hr]; rfl⟩
  · exact .inr ⟨_, sendCommand_frame (.inr hr), by rw [hr]; rfl⟩
  · exact .inr ⟨_, sendCommand_frame (.inr hr), by rw [hr]; rfl⟩

/-- Where INIT stands between two steps, its end included, and how many of its sixteen commands it has sent there
(rules R150, R151). -/
inductive InitPosition : Seq → Nat → Prop where
  | resetWait : InitPosition (.wait .afterReset) 0
  | frame (n : Fin 16) : InitPosition (.frame (.init n)) n
  | swResetWait : InitPosition (.wait .afterSwReset) 1
  | powerOnWait : InitPosition (.wait .afterPowerOn) 16
  | done : InitPosition .idle 16

/-- The payload of INIT's `n`-th command: those of the table between two empty ones (rules R154 to R169). -/
def initPayload (n : Fin 16) : List Byte :=
  if n = 0 then [] else if h : n.val - 1 < 14 then Config.cfgPayload ⟨n.val - 1, h⟩ else []

theorem initOpcodes_config (k : Fin 14) : Config.CFG_OPS[k] = initOpcodes[(⟨k.val + 1, by omega⟩ : Fin 16)] := by
  revert k; decide

theorem initPayload_config (k : Fin 14) : Config.cfgPayload k = initPayload ⟨k.val + 1, by omega⟩ := by
  simp [initPayload]

theorem frameBody_configSite (k : Fin 14) : frameBody (configSite k) = configEntry k (afterConfig k) := by
  simp [frameBody, configSite]

/-- `t` is what INIT aborted by TransferError leaves (rule R213). -/
def InitAborted (t : State) : Prop := t.seq = .idle ∧ t.phase = .uninitialized

/-- From `s` to `t` the `n`-th command of INIT was sent whole, and the script went on. -/
def InitCommandSent (n : Fin 16) (s t : State) : Prop :=
  InitPosition t.seq (n + 1) ∧ t.trace = s.trace ++ commandEvents initOpcodes[n] (initPayload n) ∧
    t.wire = s.wire ++ commandWire initOpcodes[n] (initPayload n)

/-- A transmission of INIT's `n`-th command, followed by `after`, which moves on to INIT's next position. -/
theorem transmit_init_cases {n : Fin 16} {op : Byte} {payload : List Byte} {after : State → State} {s : State}
    (hs : s.seq = .frame (.init n)) (hop : op = initOpcodes[n]) (hpl : payload = initPayload n)
    (hafter : ∀ u, InitPosition (after u).seq (n + 1) ∧ (after u).requests = u.requests ∧
      (after u).trace = u.trace ∧ (after u).wire = u.wire) :
    (transmit op payload after s).requests = s.requests ∧
      (InitAborted (transmit op payload after s) ∨ InitCommandSent n s (transmit op payload after s)) := by
  subst hop hpl
  rcases transmit_cases initOpcodes[n] (initPayload n) after s with
    ⟨u, ⟨-, -, -, -, -, hreq, -, -⟩, htr, hwi, h⟩ | ⟨u, ⟨-, -, -, -, hseq, hreq, -, -⟩, h⟩ <;> rw [h]
  · obtain ⟨apos, areq, atr, awi⟩ := hafter u
    exact ⟨areq.trans hreq, .inr ⟨apos, atr.trans htr, awi.trans hwi⟩⟩
  · exact ⟨hreq, .inl ⟨rfl, by rw [transferError_phase, hseq, hs]; rfl⟩⟩

/-- What a frame step of INIT can do: abort INIT, or send its command. -/
theorem frameBody_init_cases {n : Fin 16} {s : State} (hs : s.seq = .frame (.init n)) :
    (frameBody (.init n) s).requests = s.requests ∧
      (InitAborted (frameBody (.init n) s) ∨ InitCommandSent n s (frameBody (.init n) s)) := by
  rcases initSite_cases n with rfl | ⟨k, hk⟩ | rfl
  · exact transmit_init_cases hs rfl rfl fun _ => ⟨.swResetWait, rfl, rfl, rfl⟩
  · obtain rfl : n = ⟨k.val + 1, by omega⟩ := Site.init.inj hk
    rw [hk, frameBody_configSite, configEntry_eq]
    exact transmit_init_cases (s := loadEntry k s) hs (initOpcodes_config k) (initPayload_config k)
      fun _ => ⟨.frame _, rfl, rfl, rfl⟩
  · exact transmit_init_cases hs rfl rfl fun _ => ⟨.powerOnWait, rfl, rfl, rfl⟩

/-- A turn of one of INIT's busy-waits sends no command and stays in INIT. -/
theorem pollBusy_init {w : WaitPoint} {m : Nat} {s : State} (hs : s.seq = .wait w) (hw : InitPosition (.wait w) m) :
    (pollBusy w s).requests = s.requests ∧ InitPosition (pollBusy w s).seq m ∧
      ∃ es, (pollBusy w s).trace = s.trace ++ es ∧ SendsOpcodes es [] := by
  cases hb : nextBusy s with
  | low =>
    rw [pollBusy_of_low hb]
    exact ⟨dropBusy_requests s, by rw [dropBusy_seq, hs]; exact hw, _, rfl, sendsOpcodes_lowTurn⟩
  | high =>
    rw [pollBusy_of_high hb]
    cases hw with
    | resetWait => exact ⟨dropBusy_requests s, .frame 0, _, rfl, sendsOpcodes_sampleHigh⟩
    | swResetWait => exact ⟨dropBusy_requests s, .frame 1, _, rfl, sendsOpcodes_sampleHigh⟩
    | powerOnWait => exact ⟨dropBusy_requests s, .done, _, rfl, sendsOpcodes_sampleHigh⟩

/-! ## The invariant of a run of INIT -/

/-- A run of INIT that began in `s` has come to `t`: it was aborted, or the events it caused send the opcodes of the
commands before its position. -/
def InitRun (s t : State) : Prop :=
  t.requests = [] ∧ (InitAborted t ∨ ∃ m events, InitPosition t.seq m ∧ t.trace = s.trace ++ events ∧
    SendsOpcodes events (initOpcodes.toList.take m))

theorem initRun_begin {s t : State} (hreq : s.requests = []) (h : exec .init s = .next t) : InitRun s t := by
  obtain ⟨-, -, rfl⟩ := admitWhen_next_iff.1 h
  refine ⟨hreq, .inr ⟨0, pulseEvents, .resetWait, ?_, sendsOpcodes_pulse⟩⟩
  simp [beginInit, resetPulse, drive, delay, emit, tick, pulseEvents]

/-- The events of a step extend those of the run. -/
theorem sendsOpcodes_extend {s t u : State} {es fs : List Event} {as bs : List Byte}
    (ht : t.trace = s.trace ++ es) (hes : SendsOpcodes es as) (hu : u.trace = t.trace ++ fs) (hfs : SendsOpcodes fs bs) :
    u.trace = s.trace ++ (es ++ fs) ∧ SendsOpcodes (es ++ fs) (as ++ bs) :=
  ⟨by rw [hu, ht, List.append_assoc], hes.append hfs⟩

theorem take_succ_initOpcodes (n : Fin 16) :
    initOpcodes.toList.take (n + 1) = initOpcodes.toList.take n ++ [initOpcodes[n]] := by
  revert n; decide

theorem step_keeps_initRun {s t u : State} (h : InitRun s t) (hstep : step t = .next u) : InitRun s u := by
  obtain ⟨hreq, hrun⟩ := h
  rcases step_next_cases hstep with ⟨-, -, rfl⟩ | ⟨w, hw, rfl⟩ | ⟨site, hsite, rfl⟩ | ⟨w, rest, -, -, hcons, -⟩
  · exact ⟨hreq, hrun⟩
  · obtain ⟨hidle, -⟩ | ⟨m, es, hpos, htr, hes⟩ := hrun
    · simp [hw] at hidle
    · rw [hw] at hpos
      obtain ⟨preq, ppos, fs, ptr, hfs⟩ := pollBusy_init hw hpos
      obtain ⟨etr, hops⟩ := sendsOpcodes_extend htr hes ptr hfs
      rw [List.append_nil] at hops
      exact ⟨preq.trans hreq, .inr ⟨m, _, ppos, etr, hops⟩⟩
  · obtain ⟨hidle, -⟩ | ⟨m, es, hpos, htr, hes⟩ := hrun
    · simp [hsite] at hidle
    · rw [hsite] at hpos
      cases hpos with
      | frame n =>
        obtain ⟨freq, haborted | ⟨fpos, ftr, -⟩⟩ := frameBody_init_cases hsite
        · exact ⟨freq.trans hreq, .inl haborted⟩
        · obtain ⟨etr, hops⟩ := sendsOpcodes_extend htr hes ftr (sendsOpcodes_command _ _)
          rw [← take_succ_initOpcodes] at hops
          exact ⟨freq.trans hreq, .inr ⟨_, _, fpos, etr, hops⟩⟩
  · simp [hreq] at hcons

/-- What every step keeps holds at the end of a run. -/
theorem runFor_keeps {P : State → Prop} (hP : ∀ t u, P t → step t = .next u → P u) {n : Nat} {s t : State} (hs : P s)
    (h : runFor n s = .next t) : P t := by
  induction n generalizing s with
  | zero => cases h; exact hs
  | succ n ih =>
    rw [runFor] at h
    cases hst : step s with
    | next u => rw [hst] at h; exact ih (hP s u hs hst) h
    | fault f => rw [hst] at h; cases h
    | refused r => rw [hst] at h; cases h

/-- Settles O45: an idle block in `Ready` is not what an aborted INIT leaves, so the run stands at INIT's end, where
the invariant gives all sixteen opcodes. -/
theorem initTraceOpcodeSequence : Obligations.InitTraceOpcodeSequence := by
  unfold Obligations.InitTraceOpcodeSequence
  intro s t u n hreq hinit hrun hidle hready
  obtain ⟨-, ⟨-, haborted⟩ | ⟨m, events, hpos, htr, hops⟩⟩ :=
    runFor_keeps (fun _ _ => step_keeps_initRun) (initRun_begin hreq hinit) hrun
  · rw [hready] at haborted; cases haborted
  · rw [hidle] at hpos
    cases hpos
    exact ⟨events, htr, hops⟩

end Sys2Proof.Machine
end

