-- ==== Sys2Proof/Proofs/StateInvariants.lean ====
section
/-! PROOF. The invariants of the state (rules R21, R24, R25, R37, R151): what a step does to phase, operation and
micro-step counter, and that every step keeps them in agreement with the script. -/

namespace Sys2Proof.Machine

/-! ## The agreement at each kind of position -/

theorem controlAgrees_idle {s : State} (hs : s.seq = .idle) :
    ControlAgrees s ↔ s.phase = .uninitialized ∨ s.phase = .ready := by
  simp only [ControlAgrees, hs]

theorem controlAgrees_wait {s : State} {w : WaitPoint} (hs : s.seq = .wait w) :
    ControlAgrees s ↔
      s.phase = waitPhase w ∧ s.work.op = waitOp w ∧ s.work.upc = BitVec.ofNat 8 (waitIndex w) := by
  simp only [ControlAgrees, hs]

theorem controlAgrees_frame {s : State} {site : Site} (hs : s.seq = .frame site) :
    ControlAgrees s ↔
      s.phase = sitePhase site ∧ s.work.op = siteOp site ∧ s.work.upc = BitVec.ofNat 8 (siteIndex site) := by
  simp only [ControlAgrees, hs]

/-! ## The script indexes of the table entries (rule R152) -/

theorem configsLength_succ (k : Fin 14) :
    configsLength (k.val + 1) = configsLength k.val + commandLength (Config.cfgPayload k) := by
  rw [configsLength, List.take_succ_eq_append_getElem (by simp)]
  simp [configsLength, configLength, commandLength]

theorem siteIndex_init_succ {n : Nat} (hn : n + 1 < 16) : siteIndex (.init ⟨n + 1, hn⟩) = 10 + configsLength n := by
  rw [siteIndex, if_neg (Fin.ne_of_val_ne n.succ_ne_zero), Nat.add_sub_cancel]

theorem siteIndex_afterConfigSite (k : Fin 14) :
    siteIndex (afterConfigSite k) = siteIndex (configSite k) + commandLength (Config.cfgPayload k) := by
  rw [afterConfigSite, configSite, siteIndex_init_succ, siteIndex_init_succ, configsLength_succ, Nat.add_assoc]

theorem waitIndex_afterPowerOn : waitIndex .afterPowerOn = siteIndex (.init 15) + commandLength [] := by
  rw [show siteIndex (.init 15) = 10 + configsLength 14 from siteIndex_init_succ (n := 14) (by omega), waitIndex,
    Nat.add_right_comm]
  rfl

theorem sitePhase_afterConfigSite (k : Fin 14) :
    sitePhase (afterConfigSite k) = afterConfigPhase k (sitePhase (configSite k)) := by
  revert k; decide

theorem sitePhase_init_ne_ready (n : Fin 16) : sitePhase (.init n) ≠ .ready := by
  revert n; decide

/-! ## What a frame does to the sequencer -/

/-- A command that is sent moves `upc` past its entries and leaves the other registers alone (rule R25). -/
theorem sendCommand_work {op : Byte} {payload : List Byte} {s u : State} (h : sendCommand op payload s = .ok u) :
    u.work = { s.work with upc := s.work.upc + BitVec.ofNat 8 (commandLength payload) } := by
  rcases sendCommand_cases op payload s with ⟨-, hp, hr⟩ | ⟨-, hp, -, hr⟩ | ⟨n, -, hr⟩ | ⟨n, -, -, -, hr⟩ <;>
    rw [hr] at h <;> cases h
  · simp [afterWindow, commandLength, hp]
  · simp [afterWindow, commandLength, hp, BitVec.add_assoc]

/-- The operation that held a position is over: the block is idle in the phase of rule R213, which is the old one
outside INIT. -/
def EndedAt (site : Site) (s t : State) : Prop := t.seq = .idle ∧ t.phase = faultPhase site s.phase

theorem transferError_endedAt {site : Site} {s u : State} (hs : s.seq = .frame site) (hu : PortFrame s u) :
    EndedAt site s (transferError u) := by
  obtain ⟨-, hphase, -, -, hseq, -⟩ := hu
  refine ⟨rfl, ?_⟩
  rw [transferError_phase, hseq, hs, hphase]
  cases site <;> rfl

/-- What a transmission does to the sequencer: it ends the operation, or `upc` is past the command's entries and the
script goes on. -/
theorem transmit_control_cases {site : Site} {s : State} (hs : s.seq = .frame site) (op : Byte) (payload : List Byte)
    (after : State → State) :
    EndedAt site s (transmit op payload after s) ∨
      ∃ u, PortFrame s u ∧ u.work = { s.work with upc := s.work.upc + BitVec.ofNat 8 (commandLength payload) } ∧
        transmit op payload after s = after u := by
  unfold transmit
  cases hr : sendCommand op payload s with
  | ok u => exact .inr ⟨u, sendCommand_frame (.inl hr), sendCommand_work hr, rfl⟩
  | error u => exact .inl (transferError_endedAt hs (sendCommand_frame (.inr hr)))

theorem portFrame_setWork {s u : State} {w : WorkRegs} : PortFrame { s with work := w } u ↔ PortFrame s u := Iff.rfl

theorem sendFrame_frame {s u : State} (h : sendFrame s = .ok u ∨ sendFrame s = .error u) : PortFrame s u :=
  portFrame_setWork.1 (csWindow_frame h)

/-- UPDATE_FRAMES ends with its frame, whatever the environment answers (rules R180, R187). -/
theorem frameUpdate_endedAt {s : State} (hs : s.seq = .frame .update) : EndedAt .update s (frameUpdate s) := by
  cases h : nextSpi s with
  | error n =>
    rw [frameUpdate_of_opcode_error h]
    exact transferError_endedAt hs (atFailedWindow_frame ..)
  | ok =>
    rw [frameUpdate_of_opcode_ok h]
    have hopcode := afterWindow_frame .low [Config.OP_DTM] s
    cases hr : sendFrame (afterWindow .low [Config.OP_DTM] s) with
    | ok u =>
      obtain ⟨-, hphase, -⟩ := sendFrame_frame (.inl hr)
      exact ⟨rfl, hphase.trans hopcode.2.1⟩
    | error u => exact transferError_endedAt hs (hopcode.trans (sendFrame_frame (.inr hr)))

/-! ## Every step keeps the agreement -/

theorem EndedAt.controlAgrees {site : Site} {s t : State} (hs : s.seq = .frame site) (h : ControlAgrees s)
    (ht : EndedAt site s t) : ControlAgrees t := by
  obtain ⟨hseq, hphase⟩ := ht
  obtain ⟨hsite, -⟩ := (controlAgrees_frame hs).1 h
  rw [controlAgrees_idle hseq, hphase]
  cases site with
  | init n => exact .inl rfl
  | update => exact .inr hsite
  | display => exact .inr hsite

/-- A transmission keeps the agreement when what follows it moves to a position whose phase, operation and index are
those after the command. -/
theorem transmit_keeps_controlAgrees {site : Site} {s : State} (hs : s.seq = .frame site) (h : ControlAgrees s)
    {op : Byte} {payload : List Byte} {after : State → State}
    (hafter : ∀ u, u.phase = sitePhase site → u.work.op = siteOp site →
      u.work.upc = BitVec.ofNat 8 (siteIndex site + commandLength payload) → ControlAgrees (after u)) :
    ControlAgrees (transmit op payload after s) := by
  rcases transmit_control_cases hs op payload after with hend | ⟨u, ⟨-, hphase, -⟩, hwork, heq⟩
  · exact hend.controlAgrees hs h
  · obtain ⟨sphase, sop, supc⟩ := (controlAgrees_frame hs).1 h
    rw [heq]
    exact hafter u (hphase.trans sphase) (by rw [hwork, sop]) (by rw [hwork, supc, BitVec.ofNat_add])

theorem afterConfig_controlAgrees (k : Fin 14) {u : State} (hphase : u.phase = sitePhase (configSite k))
    (hop : u.work.op = siteOp (configSite k))
    (hupc : u.work.upc = BitVec.ofNat 8 (siteIndex (configSite k) + commandLength (Config.cfgPayload k))) :
    ControlAgrees (afterConfig k u) := by
  refine (controlAgrees_frame (site := afterConfigSite k) rfl).2 ⟨?_, hop, ?_⟩
  · rw [sitePhase_afterConfigSite, ← hphase]; rfl
  · rw [siteIndex_afterConfigSite, ← hupc]; rfl

theorem frameBody_keeps_controlAgrees {site : Site} {s : State} (hs : s.seq = .frame site) (h : ControlAgrees s) :
    ControlAgrees (frameBody site s) := by
  cases site with
  | init n =>
    rcases initSite_cases n with rfl | ⟨k, hk⟩ | rfl
    · exact transmit_keeps_controlAgrees hs h fun u _ hop hupc => ⟨rfl, hop, hupc⟩
    · rw [hk, frameBody_configSite, configEntry_eq]
      rw [hk] at hs
      exact transmit_keeps_controlAgrees (s := loadEntry k s) hs h fun u => afterConfig_controlAgrees k
    · refine transmit_keeps_controlAgrees hs h fun u _ hop hupc => ⟨rfl, hop, ?_⟩
      rw [waitIndex_afterPowerOn, ← hupc]; rfl
  | update => exact (frameUpdate_endedAt hs).controlAgrees hs h
  | display => exact transmit_keeps_controlAgrees hs h fun u hphase hop hupc => ⟨hphase, hop, hupc⟩

/-- Where a busy-wait is left, `upc` one past it is the index of the next frame, or the operation ends in `Ready`. -/
theorem afterWait_controlAgrees {w : WaitPoint} {s : State} (hphase : s.phase = waitPhase w)
    (hop : s.work.op = waitOp w) (hupc : s.work.upc = BitVec.ofNat 8 (waitIndex w) + 1) :
    ControlAgrees (afterWait w s) := by
  cases w with
  | afterReset => exact ⟨hphase, hop, hupc⟩
  | afterSwReset => exact ⟨hphase, hop, hupc⟩
  | afterPowerOn => exact .inr rfl
  | afterRefresh => exact .inr hphase

theorem pollBusy_keeps_controlAgrees {w : WaitPoint} {s : State} (hs : s.seq = .wait w) (h : ControlAgrees s) :
    ControlAgrees (pollBusy w s) := by
  obtain ⟨hphase, hop, hupc⟩ := (controlAgrees_wait hs).1 h
  cases hb : nextBusy s with
  | low =>
    rw [pollBusy_of_low hb]
    exact (controlAgrees_wait (w := w) (by simp [hs])).2 (by simp [hphase, hop, hupc])
  | high =>
    rw [pollBusy_of_high hb]
    exact afterWait_controlAgrees (by simp [hphase]) (by simp [hop]) (by simp [hupc])

theorem drawPixel_phase (x y : Int) (c : Color) (s : State) : (drawPixel x y c s).phase = s.phase := by
  unfold drawPixel drawLoaded
  split <;> rfl

/-- What a host operation that is admitted does to the sequencer: the store's operations end in their own step and keep
the phase, the driver's begin their script in the one phase that admits them (rules R92, R110, R150). -/
theorem exec_host_control_cases {w : HostWord} {i : Instr} {s t : State} (hd : decodeHost w = .ok i)
    (he : exec i s = .next t) :
    (t.seq = .idle ∧ t.phase = s.phase) ∨ (s.phase = .uninitialized ∧ t = beginInit (accept 3 s)) ∨
      (s.phase = .ready ∧ (t = goToFrame .update (accept 4 s) ∨ t = goToFrame .display (accept 5 s))) := by
  rcases (exec_host_next_cases hd he).2 with rfl | ⟨x, y, c, rfl⟩ | rfl | ⟨hp, rfl⟩ | ⟨hp, rfl⟩ | ⟨hp, rfl⟩
  · exact .inl ⟨rfl, rfl⟩
  · exact .inl ⟨drawPixel_seq .., drawPixel_phase ..⟩
  · exact .inl ⟨rfl, rfl⟩
  · exact .inr (.inl ⟨hp, rfl⟩)
  · exact .inr (.inr ⟨hp, .inl rfl⟩)
  · exact .inr (.inr ⟨hp, .inr rfl⟩)

/-- The reset pulse's four entries bring `upc` from 0 to the first busy-wait (rules R140, R150). -/
theorem beginInit_controlAgrees (s : State) : ControlAgrees (beginInit (accept 3 s)) := ⟨rfl, rfl, rfl⟩

theorem exec_host_controlAgrees {w : HostWord} {i : Instr} {s t : State} (hd : decodeHost w = .ok i)
    (he : exec i s = .next t) (h : s.phase = .uninitialized ∨ s.phase = .ready) : ControlAgrees t := by
  rcases exec_host_control_cases hd he with ⟨hseq, hphase⟩ | ⟨-, rfl⟩ | ⟨hready, rfl | rfl⟩
  · rwa [controlAgrees_idle hseq, hphase]
  · exact beginInit_controlAgrees s
  · exact ⟨hready, rfl, rfl⟩
  · exact ⟨hready, rfl, rfl⟩

/-- Settles O53, by what each kind of step does to phase, `op` and `upc`. -/
theorem stepKeepsControlAgrees : Obligations.StepKeepsControlAgrees := by
  unfold Obligations.StepKeepsControlAgrees
  intro s t h hstep
  rcases step_next_cases hstep with ⟨-, -, rfl⟩ | ⟨w, hw, rfl⟩ | ⟨site, hsite, rfl⟩ | ⟨w, rest, i, hidle, -, hd, he⟩
  · exact h
  · exact pollBusy_keeps_controlAgrees hw h
  · exact frameBody_keeps_controlAgrees hsite h
  · exact exec_host_controlAgrees hd he ((controlAgrees_idle hidle).1 h)

/-! ## Ready is never left -/

theorem pollBusy_afterRefresh_phase (s : State) : (pollBusy .afterRefresh s).phase = s.phase := by
  cases hb : nextBusy s with
  | low => rw [pollBusy_of_low hb]; exact dropBusy_phase s
  | high => rw [pollBusy_of_high hb]; exact dropBusy_phase s

/-- The frames of UPDATE_FRAMES and DISPLAY_FRAME keep the phase, a TransferError included (rules R187, R203, R213). -/
theorem frameBody_phase_of_ready {site : Site} {s : State} (hs : s.seq = .frame site)
    (hready : sitePhase site = .ready) : (frameBody site s).phase = s.phase := by
  cases site with
  | init n => exact absurd hready (sitePhase_init_ne_ready n)
  | update => exact (frameUpdate_endedAt hs).2
  | display =>
    rcases transmit_control_cases hs Config.OP_DRF [] goToRefreshWait with ⟨-, hphase⟩ | ⟨u, ⟨-, hphase, -⟩, -, heq⟩
    · exact hphase
    · exact (congrArg State.phase heq).trans hphase

/-- Settles O55: in `Ready` the script can stand only where UPDATE_FRAMES and DISPLAY_FRAME do, whose steps keep the
phase, and the one host operation that changes it is refused. -/
theorem readyIsNeverLeft : Obligations.ReadyIsNeverLeft := by
  unfold Obligations.ReadyIsNeverLeft
  intro s t h hready hstep
  rcases step_next_cases hstep with ⟨-, -, rfl⟩ | ⟨w, hw, rfl⟩ | ⟨site, hsite, rfl⟩ | ⟨w, rest, i, -, -, hd, he⟩
  · exact hready
  · obtain ⟨hphase, -⟩ := (controlAgrees_wait hw).1 h
    cases w with
    | afterRefresh => rw [pollBusy_afterRefresh_phase, hready]
    | _ => rw [hready] at hphase; cases hphase
  · obtain ⟨hphase, -⟩ := (controlAgrees_frame hsite).1 h
    rw [frameBody_phase_of_ready hsite (hphase.symm.trans hready), hready]
  · rcases exec_host_control_cases hd he with ⟨-, hphase⟩ | ⟨huninit, -⟩ | ⟨-, rfl | rfl⟩
    · rw [hphase]; exact hready
    · exact absurd (hready.symm.trans huninit) (by decide)
    · exact hready
    · exact hready

/-! ## The canonical form of the planes -/

/-- Settles O50: a step leaves the planes alone, clears them or draws one pixel. -/
theorem stepKeepsPlanesCanonical : Obligations.StepKeepsPlanesCanonical := by
  unfold Obligations.StepKeepsPlanesCanonical PlanesCanonical
  intro s t h hstep
  rcases step_planes_cases hstep with heq | heq | ⟨px, c, heq⟩ <;> rw [heq]
  · exact h
  · exact clearPlanes_wf
  · exact drawPlanes_wf h ..

/-! ## After reset -/

/-- Settles O11: the planes after reset are those of CLEAR. -/
theorem resetState : Obligations.ResetState := by
  unfold Obligations.ResetState
  exact ⟨planeRead_clearPlanes, rfl, rfl, rfl, rfl, rfl, rfl, rfl⟩

/-- Settles O12: in clear planes every position is white, and the idle block in `Uninitialized` asks nothing of RST. -/
theorem resetMeetsInvariants : Obligations.ResetMeetsInvariants := by
  unfold Obligations.ResetMeetsInvariants
  have hwhite : ∀ idx bit, bitsAt State.reset.planes idx bit = colorBits .white := bitsAt_clearPlanes
  refine ⟨clearPlanes_wf, fun idx bit => ?_, fun idx bit _ => hwhite idx bit, .inl rfl, ?_⟩
  · rw [hwhite]; decide
  · rintro (hrunning | hready)
    · exact absurd rfl hrunning
    · cases hready

end Sys2Proof.Machine
end

