-- ==== Sys2Proof/Proofs/MemoryAddressing.lean ====
section
/-! PROOF. The two address maps of the memory (rules R56 to R58, R63): which pixels share a bit position, which bit
positions belong to none, and where each pixel stands in the frame the transposer's loops produce. -/

namespace Sys2Proof.Machine

/-! ## Pixels and the bit positions they use (rules R56 to R58) -/

theorem sharesBit_comm {p q : Pixel} : SharesBit p q ↔ SharesBit q p := by
  simp only [SharesBit, eq_comm]

/-- `PlaneAddr` of a pixel, as arithmetic on its coordinates (rule R56). -/
theorem uses_iff {p : Pixel} {idx : Fin 3813} {bit : Fin 8} :
    planeIdx p = idx ∧ planeBit p = bit ↔
      (p.y.val * 250 + p.x.val) / 8 = idx.val ∧ p.x.val % 8 = 7 - bit.val := by
  simp only [Fin.ext_iff, planeIdx, planeBit]
  omega

theorem sharesBit_iff {p q : Pixel} :
    SharesBit p q ↔
      (p.y.val * 250 + p.x.val) / 8 = (q.y.val * 250 + q.x.val) / 8 ∧ p.x.val % 8 = q.x.val % 8 := by
  rw [SharesBit, uses_iff]
  simp only [planeIdx, planeBit]
  omega

/-- Within a row a byte has eight columns and so no two that are congruent mod 8. -/
theorem eq_of_sharesBit_of_row_eq {p q : Pixel} (h : SharesBit p q) (hy : p.y = q.y) : p = q := by
  obtain ⟨⟨px, hpx⟩, py⟩ := p
  obtain ⟨⟨qx, hqx⟩, qy⟩ := q
  obtain rfl : py = qy := hy
  rw [sharesBit_iff] at h
  simp only at h
  obtain rfl : px = qx := by omega
  rfl

/-- Pixels of two rows share a bit only where one byte holds the last columns of a row and the first of the next. -/
theorem sharesBit_iff_of_row_lt {p q : Pixel} (hy : p.y < q.y) :
    SharesBit p q ↔ p.y.val % 4 ≠ 3 ∧ q.y.val = p.y.val + 1 ∧
      ((p.x.val = 248 ∧ q.x.val = 0) ∨ (p.x.val = 249 ∧ q.x.val = 1)) := by
  have hp := p.x.isLt
  have hq := q.x.isLt
  rw [Fin.lt_def] at hy
  rw [sharesBit_iff]
  constructor
  · rintro ⟨hidx, hbit⟩
    have hnext : q.y.val = p.y.val + 1 := by omega
    have hx : p.x.val = q.x.val + 248 := by omega
    omega
  · rintro ⟨hrow, hnext, hx⟩
    have hmod : p.y.val % 4 = 0 ∨ p.y.val % 4 = 1 ∨ p.y.val % 4 = 2 := by omega
    omega

/-- Settles O22: the pixels lie in different rows, and the statement is the same for both orders of them. -/
theorem pixelsThatShareABit : Obligations.PixelsThatShareABit := by
  unfold Obligations.PixelsThatShareABit
  intro p q hpq
  rcases eq_or_ne p.y q.y with heq | hne
  · refine ⟨fun h => absurd (eq_of_sharesBit_of_row_eq h heq) hpq, ?_⟩
    rintro ⟨y, -, -, ⟨rfl, hnext, -⟩ | ⟨rfl, hnext, -⟩⟩ <;> omega
  wlog hlt : p.y < q.y generalizing p q
  · rw [sharesBit_comm, this q p hpq.symm hne.symm (by omega)]
    exact exists_congr fun y => and_congr_right' (and_congr_right' or_comm)
  have hqy := q.y.isLt
  rw [sharesBit_iff_of_row_lt hlt]
  constructor
  · rintro ⟨hrow, hnext, hx⟩
    exact ⟨p.y, by omega, hrow, .inl ⟨rfl, hnext, hx⟩⟩
  · rintro ⟨y, -, hrow, ⟨rfl, hnext, hx⟩ | ⟨rfl, hnext, -⟩⟩
    · exact ⟨hrow, hnext, hx⟩
    · omega

theorem not_unused {idx : Fin 3813} {bit : Fin 8} {x y : Nat} (hx : x < 250) (hy : y < 122)
    (hidx : (y * 250 + x) / 8 = idx.val) (hbit : x % 8 = 7 - bit.val) : ¬Unused idx bit :=
  fun h => h ⟨⟨x, hx⟩, ⟨y, hy⟩⟩ (uses_iff.2 ⟨hidx, hbit⟩)

/-- Each bit of a byte that begins at column `x` of row `y` has its column among the eight from `x` on. Where no pixel
uses it, that column is past the end of row `y`, and past the byte's last pixel in the next row. -/
theorem column_of_unused {idx : Fin 3813} {bit : Fin 8} {x y : Nat} (hbyte : y * 250 + x = 8 * idx.val)
    (hx : x < 250) (h : Unused idx bit) :
    ∃ c, c < x + 8 ∧ c % 8 = 7 - bit.val ∧ 250 ≤ c ∧ (y + 1 < 122 → x + 8 ≤ 250 + (7 - bit.val)) := by
  have hidx := idx.isLt
  obtain ⟨c, hxc, hcx, hc⟩ : ∃ c, x ≤ c ∧ c < x + 8 ∧ c % 8 = 7 - bit.val :=
    ⟨x + (15 - bit.val - x % 8) % 8, by omega, by omega, by omega⟩
  refine ⟨c, hcx, hc, ?_, fun hy => ?_⟩
  · by_contra hlt
    exact not_unused (x := c) (y := y) (by omega) (by omega) (by omega) hc h
  · by_contra hlt
    exact not_unused (x := 7 - bit.val) (y := y + 1) (by omega) hy (by omega) (by omega) h

/-- The bytes that begin in one row and end in the next, by the row mod 4. -/
theorem byte_at_row_end {n x y : Nat} (hbyte : y * 250 + x = 8 * n) (hlow : 243 ≤ x) (hx : x < 250) :
    (y % 4 = 0 ∧ x = 248) ∨ (y % 4 = 1 ∧ x = 246) ∨ (y % 4 = 2 ∧ x = 244) := by
  have hmod : y % 4 = 0 ∨ y % 4 = 1 ∨ y % 4 = 2 ∨ y % 4 = 3 := by omega
  omega

/-- Settles O23: a byte with an unused bit begins at the end of a row, where the row mod 4 fixes its columns; and the
pixels of the listed bytes lie in their row and the next. -/
theorem unusedBitPositions : Obligations.UnusedBitPositions := by
  unfold Obligations.UnusedBitPositions
  intro idx bit
  have hidx := idx.isLt
  have hbit := bit.isLt
  simp only [Fin.ext_iff]
  constructor
  · intro h
    have hbyte : 8 * idx.val / 250 * 250 + 8 * idx.val % 250 = 8 * idx.val := Nat.div_add_mod' ..
    have hx : 8 * idx.val % 250 < 250 := Nat.mod_lt _ (by omega)
    generalize 8 * idx.val / 250 = y at hbyte
    generalize 8 * idx.val % 250 = x at hbyte hx
    obtain ⟨c, hcx, hc, hpast, hnext⟩ := column_of_unused hbyte hx h
    rcases byte_at_row_end hbyte (by omega) hx with ⟨hy, rfl⟩ | ⟨hy, rfl⟩ | ⟨hy, rfl⟩
    · exact .inl ⟨y, by omega, by omega, by omega⟩
    · rcases Nat.lt_or_ge y 121 with hrow | hlast
      · exact .inl ⟨y, by omega, by omega, by omega⟩
      · exact .inr (by omega)
    · exact .inl ⟨y, by omega, by omega, by omega⟩
  · intro h p hp
    obtain ⟨hpi, hpb⟩ := uses_iff.1 hp
    have hpx := p.x.isLt
    have hpy := p.y.isLt
    obtain ⟨y, -, hy, hbits⟩ | ⟨hlast, hbits⟩ := h
    · have hrow : p.y.val = y ∨ p.y.val = y + 1 := by omega
      omega
    · have hrow : p.y.val = 121 := by omega
      omega

/-! ## The transposer's loops give the closed form -/

/-- The middle loop over a list of groups appends their frame bytes and keeps the row. -/
theorem foldl_emitByte (pl : Planes) (gs : List (Fin 32)) (w : WorkRegs) (bytes : List Byte) :
    (gs.foldl (emitByte pl) (w, bytes)).1.ly = w.ly ∧
      (gs.foldl (emitByte pl) (w, bytes)).2 = bytes ++ gs.map (fun g => frameByte pl (32 * w.ly.val + g.val)) := by
  induction gs generalizing w bytes with
  | nil => simp
  | cons g gs ih =>
    obtain ⟨hrow, hacc⟩ := byteStep_eq pl w g
    obtain ⟨ihrow, ihbytes⟩ := ih (byteStep pl w g) (bytes ++ [(byteStep pl w g).acc])
    rw [hrow] at ihrow ihbytes
    refine ⟨ihrow, ihbytes.trans ?_⟩
    rw [hacc, List.map_cons, List.append_assoc, List.singleton_append]

/-- The 32 frame bytes of driver row `ly`. -/
def rowBytes (pl : Planes) (ly : Nat) : List Byte := (List.range 32).map (fun g => frameByte pl (32 * ly + g))

theorem rowStep_bytes (pl : Planes) (r : WorkRegs × List Byte) (ly : Fin 250) :
    (rowStep pl r ly).2 = r.2 ++ rowBytes pl ly := by
  obtain ⟨-, hbytes⟩ := foldl_emitByte pl (List.finRange 32) { r.1 with ly := ly.castLE (by decide) } r.2
  rw [rowStep, hbytes, rowBytes, ← List.map_coe_finRange_eq_range, List.map_map]
  rfl

theorem foldl_rowStep (pl : Planes) (lys : List (Fin 250)) (r : WorkRegs × List Byte) :
    (lys.foldl (rowStep pl) r).2 = r.2 ++ lys.flatMap (fun ly : Fin 250 => rowBytes pl ly) := by
  induction lys generalizing r with
  | nil => simp
  | cons ly lys ih => rw [List.foldl_cons, ih, rowStep_bytes, List.flatMap_cons, List.append_assoc]

/-- The rows one after another are the frame bytes in order. -/
theorem flatMap_rowBytes (pl : Planes) (m : Nat) :
    (List.range m).flatMap (rowBytes pl) = (List.range (32 * m)).map (frameByte pl) := by
  induction m with
  | zero => rfl
  | succ m ih =>
    rw [List.range_succ, List.flatMap_append, ih, Nat.mul_succ, List.range_add, List.map_append, List.map_map]
    simp [rowBytes]

/-- The transposer's loops produce the closed-form frame, whatever the registers held (rules R183, R185). -/
theorem transpose_bytes (pl : Planes) (w : WorkRegs) : (transpose pl w).2 = frameBytes pl := by
  rw [transpose, foldl_rowStep, List.nil_append, frameBytes, ← flatMap_rowBytes pl 250,
    ← List.map_coe_finRange_eq_range, List.flatMap_map]

theorem transpose_getD (pl : Planes) (w : WorkRegs) {n : Nat} (hn : n < 8000) :
    (transpose pl w).2.getD n 0 = frameByte pl n := by
  rw [transpose_bytes, frameBytes, List.getD_eq_getElem _ _ (by simpa using hn)]
  simp

/-- Slot 0 stands in the most significant bits (rule R84). -/
theorem slotCode_pack (a b c d : BitVec 2) :
    slotCode (a ++ b ++ c ++ d) 0 = a ∧ slotCode (a ++ b ++ c ++ d) 1 = b ∧ slotCode (a ++ b ++ c ++ d) 2 = c ∧
      slotCode (a ++ b ++ c ++ d) 3 = d := by
  revert a b c d; decide

theorem slotCode_frameByte (pl : Planes) (n : Nat) {i : Nat} (hi : i < 4) :
    slotCode (frameByte pl n) i = frameSlot pl n i := by
  obtain ⟨h0, h1, h2, h3⟩ := slotCode_pack (frameSlot pl n 0) (frameSlot pl n 1) (frameSlot pl n 2) (frameSlot pl n 3)
  interval_cases i
  · exact h0
  · exact h1
  · exact h2
  · exact h3

theorem slotCode_transpose (pl : Planes) (w : WorkRegs) {n i : Nat} (hn : n < 8000) (hi : i < 4) :
    slotCode ((transpose pl w).2.getD n 0) i = frameSlot pl n i := by
  rw [transpose_getD pl w hn, slotCode_frameByte pl n hi]

/-! ## The slots of the frame (rule R63) -/

theorem wireByte_lt (px : Pixel) : wireByte px < 8000 := by
  have hx := px.x.isLt
  unfold wireByte
  omega

theorem wireSlot_lt (px : Pixel) : wireSlot px < 4 := Nat.mod_lt _ (by decide)

/-- Settles O27: the slots of the loops' output are those of the closed form. -/
theorem frameSlotsHoldPixelCodes : Obligations.FrameSlotsHoldPixelCodes := by
  unfold Obligations.FrameSlotsHoldPixelCodes
  intro pl w
  refine ⟨by rw [transpose_bytes]; simp [frameBytes], fun px => ⟨wireByte_lt px, ?_⟩, fun ly col hly hpad hcol => ?_⟩
  · rw [slotCode_transpose pl w (wireByte_lt px) (wireSlot_lt px), frameSlot_pixel]
  · rw [slotCode_transpose pl w (by omega) (by omega), frameSlot_pad pl (by omega)]
    rfl

/-- A slot fixes the row and the column of the pixel it belongs to. -/
theorem wireAddr_iff {px : Pixel} {n i : Nat} (hi : i < 4) :
    wireByte px = n ∧ wireSlot px = i ↔
      px.x.val = n / 32 ∧ 121 - px.y.val = 4 * (n % 32) + i := by
  have hy := px.y.isLt
  unfold wireByte wireSlot
  omega

/-- Settles O28, by the inverse of `WireAddr`. -/
theorem eachValidSlotHasOnePixel : Obligations.EachValidSlotHasOnePixel := by
  unfold Obligations.EachValidSlotHasOnePixel
  intro n i hn hi
  simp only [wireAddr_iff hi]
  refine ⟨fun hcol => ?_, fun hpad px => by omega⟩
  refine ⟨⟨⟨n / 32, by omega⟩, ⟨121 - (4 * (n % 32) + i), by omega⟩⟩, ⟨rfl, by simp only; omega⟩, rfl, rfl, ?_⟩
  rintro ⟨⟨x, hx⟩, ⟨y, hy⟩⟩ ⟨hqx, hqy⟩
  simp only at hqx hqy
  obtain rfl : y = 121 - (4 * (n % 32) + i) := by omega
  subst hqx
  rfl

end Sys2Proof.Machine
end

