-- ==== Sys2Proof/Proofs/MemorySteps.lean ====
section
/-! PROOF. What a step does to the memory and to the record of the ports (rules R50, R58, R61, R66), and the refusal of
instructions out of their place (rules R62, R92, R93, R96). -/

namespace Sys2Proof.Machine

/-! ## Instructions out of their place -/

theorem atSite_of_elsewhere {site : Site} {body : State → State} {s : State} (h : s.seq ≠ .frame site) :
    atSite site body s = .refused .notAtItsPosition := if_neg h

theorem admitWhen_of_running {op : BitVec 3} {ok : Phase → Bool} {body : State → State} {s : State}
    (h : s.seq ≠ .idle) : admitWhen op ok body s = .refused .operationRunning := if_neg h

/-- Settles O10: every wire command runs under `atSite`, every host operation under `admitWhen`. -/
theorem outOfPlaceIsRefused : Obligations.OutOfPlaceIsRefused := by
  unfold Obligations.OutOfPlaceIsRefused
  intro s
  refine ⟨fun site hsite => ?_, fun hrunning w i hd => ?_⟩
  · rw [exec_siteInstr, atSite_of_elsewhere hsite]
  · rcases decodeHost_cases hd with rfl | rfl | rfl | rfl | rfl | rfl <;> exact admitWhen_of_running hrunning

/-! ## Unused bits stay set -/

/-- Settles O52: a draw changes no position but its pixel's, which is a used one. -/
theorem stepKeepsUnusedBitsSet : Obligations.StepKeepsUnusedBitsSet := by
  unfold Obligations.StepKeepsUnusedBitsSet UnusedBitsSet PlanesCanonical
  intro s t hwf h hstep idx bit hunused
  rcases step_planes_cases hstep with heq | heq | ⟨px, c, heq⟩ <;> rw [heq]
  · exact h idx bit hunused
  · exact bitsAt_clearPlanes idx bit
  · have hpos : ¬(idx = planeIdx px ∧ bit = planeBit px) := fun ⟨hi, hb⟩ => hunused px ⟨hi.symm, hb.symm⟩
    rw [bitsAt_drawPlanes hwf, if_neg hpos]
    exact h idx bit hunused

/-! ## Only the store writes planes -/

/-- The instructions a host word can decode to, those of the store with their `op` (rule R81). -/
theorem decodeHost_store_cases {w : HostWord} {i : Instr} (h : decodeHost w = .ok i) :
    (opField w = 0 ∧ i = .clear) ∨
    (opField w = 1 ∧ i = .drawPixel (xField w).toInt (yField w).toInt (Color.ofCode (colorField w))) ∨
    i = .getSize ∨ i = .init ∨ i = .updateFrames ∨ i = .displayFrame := by
  unfold decodeHost at h
  split at h <;> cases h <;> simp [← BitVec.toNat_inj, *]

/-- The coordinates of a host word are in range (rule R87). -/
theorem coordInRange_toInt (v : BitVec 32) : CoordInRange v.toInt := by
  have hlo := BitVec.le_toInt v
  have hhi := BitVec.toInt_lt (x := v)
  norm_num at hlo hhi
  constructor <;> omega

/-- Settles O56: busy-waits and frames leave the planes alone, and of the host operations all but CLEAR and a draw that
passes the bounds check. -/
theorem onlyTheStoreWritesPlanes : Obligations.OnlyTheStoreWritesPlanes := by
  unfold Obligations.OnlyTheStoreWritesPlanes
  intro s t hstep hne
  rcases step_next_cases hstep with ⟨-, -, rfl⟩ | ⟨w, -, rfl⟩ | ⟨site, -, rfl⟩ | ⟨w, rest, i, hidle, hreq, hd, he⟩
  · exact absurd rfl hne
  · exact absurd (pollBusy_planes w s) hne
  · exact absurd (frameBody_planes site s) hne
  · refine ⟨hidle, w, rest, hreq, ?_⟩
    rcases decodeHost_store_cases hd with ⟨hop, -⟩ | ⟨hop, rfl⟩ | rfl | rfl | rfl | rfl
    · exact .inl hop
    · by_cases hin : InBounds (xField w).toInt (yField w).toInt
      · exact .inr ⟨hop, hin⟩
      · obtain ⟨-, -, rfl⟩ := admitWhen_next_iff.1 he
        rw [drawPixel_of_not_inBounds (coordInRange_toInt _) (coordInRange_toInt _) hin] at hne
        exact absurd rfl hne
    all_goals -- GET_SIZE and the driver's three operations
      obtain ⟨-, -, rfl⟩ := admitWhen_next_iff.1 he
      exact absurd rfl hne

/-! ## The trace and the wire only grow -/

/-- No event and no byte on the wire is taken back on the way from `s` to `t`. -/
def PortsGrow (s t : State) : Prop := s.trace <+: t.trace ∧ s.wire <+: t.wire

theorem PortsGrow.of_eq {s t : State} (htr : t.trace = s.trace) (hwi : t.wire = s.wire) : PortsGrow s t :=
  ⟨htr ▸ List.prefix_rfl, hwi ▸ List.prefix_rfl⟩

theorem PortsGrow.trans {s t u : State} (h : PortsGrow s t) (k : PortsGrow t u) : PortsGrow s u :=
  ⟨h.1.trans k.1, h.2.trans k.2⟩

theorem afterWindow_portsGrow (dc : Level) (bytes : List Byte) (s : State) :
    PortsGrow s (afterWindow dc bytes s) := ⟨List.prefix_append .., List.prefix_append ..⟩

theorem atFailedWindow_portsGrow (dc : Level) (bytes : List Byte) (n : Nat) (s : State) :
    PortsGrow s (atFailedWindow dc bytes n s) := ⟨List.prefix_append .., List.prefix_append ..⟩

theorem csWindow_portsGrow {dc : Level} {bytes : List Byte} {s u : State}
    (h : csWindow dc bytes s = .ok u ∨ csWindow dc bytes s = .error u) : PortsGrow s u := by
  rcases csWindow_cases dc bytes s with ⟨-, hr⟩ | ⟨n, -, hr⟩ <;> rw [hr] at h <;> rcases h with h | h <;> cases h
  · exact afterWindow_portsGrow dc bytes s
  · exact atFailedWindow_portsGrow dc bytes n s

theorem sendCommand_portsGrow {op : Byte} {payload : List Byte} {s u : State}
    (h : sendCommand op payload s = .ok u ∨ sendCommand op payload s = .error u) : PortsGrow s u := by
  rcases sendCommand_cases op payload s with ⟨-, -, hr⟩ | ⟨-, -, -, hr⟩ | ⟨n, -, hr⟩ | ⟨n, -, -, -, hr⟩ <;>
    rw [hr] at h <;> rcases h with h | h <;> cases h
  · exact afterWindow_portsGrow ..
  · exact (afterWindow_portsGrow ..).trans (afterWindow_portsGrow ..)
  · exact atFailedWindow_portsGrow ..
  · exact (afterWindow_portsGrow ..).trans (atFailedWindow_portsGrow ..)

theorem transferError_portsGrow (s : State) : PortsGrow s (transferError s) := .of_eq rfl rfl

/-- The working registers play no part in what left the block. -/
theorem portsGrow_setWork {s u : State} {w : WorkRegs} : PortsGrow { s with work := w } u ↔ PortsGrow s u := Iff.rfl

theorem afterSend_portsGrow {after : State → State} (ha : ∀ u, PortsGrow u (after u)) {s : State}
    {r : Except State State} (hr : ∀ u, r = .ok u ∨ r = .error u → PortsGrow s u) : PortsGrow s (afterSend after r) := by
  cases r with
  | ok u => exact (hr u (.inl rfl)).trans (ha u)
  | error u => exact (hr u (.inr rfl)).trans (transferError_portsGrow u)

theorem transmit_portsGrow {op : Byte} {payload : List Byte} {after : State → State}
    (ha : ∀ u, PortsGrow u (after u)) (s : State) : PortsGrow s (transmit op payload after s) :=
  afterSend_portsGrow ha fun _ => sendCommand_portsGrow

theorem sendFrame_portsGrow {s u : State} (h : sendFrame s = .ok u ∨ sendFrame s = .error u) : PortsGrow s u :=
  portsGrow_setWork.1 (csWindow_portsGrow h)

theorem frameUpdate_portsGrow (s : State) : PortsGrow s (frameUpdate s) := by
  unfold frameUpdate
  cases h : opcodePhase Config.OP_DTM s with
  | error u => exact (csWindow_portsGrow (.inr h)).trans (transferError_portsGrow u)
  | ok u =>
    exact (csWindow_portsGrow (.inl h)).trans
      (afterSend_portsGrow (after := complete) (fun _ => .of_eq rfl rfl) fun _ => sendFrame_portsGrow)

theorem frameBody_portsGrow (site : Site) (s : State) : PortsGrow s (frameBody site s) := by
  cases site with
  | init n =>
    rcases initSite_cases n with rfl | ⟨k, hk⟩ | rfl
    · exact transmit_portsGrow (after := goToWait _ _) (fun _ => .of_eq rfl rfl) s
    · rw [hk, frameBody_configSite, configEntry_eq]
      exact transmit_portsGrow (after := afterConfig k) (fun _ => .of_eq rfl rfl) (loadEntry k s)
    · exact transmit_portsGrow (after := goToWait _ _) (fun _ => .of_eq rfl rfl) s
  | update => exact frameUpdate_portsGrow s
  | display => exact transmit_portsGrow (after := goToRefreshWait) (fun _ => .of_eq rfl rfl) s

theorem afterWait_portsGrow (w : WaitPoint) (s : State) : PortsGrow s (afterWait w s) := by
  cases w <;> exact .of_eq rfl rfl

theorem pollBusy_portsGrow (w : WaitPoint) (s : State) : PortsGrow s (pollBusy w s) := by
  cases hb : nextBusy s with
  | low =>
    rw [pollBusy_of_low hb]
    exact ⟨List.prefix_append .., by simp⟩
  | high =>
    rw [pollBusy_of_high hb]
    exact .trans ⟨List.prefix_append .., by simp⟩ (afterWait_portsGrow w _)

theorem drawPixel_portsGrow (x y : Int) (c : Color) (s : State) : PortsGrow s (drawPixel x y c s) := by
  unfold drawPixel drawLoaded
  split <;> exact .of_eq rfl rfl

theorem beginInit_trace (s : State) : (beginInit s).trace = s.trace ++ pulseEvents := by
  simp [beginInit, resetPulse, drive, delay, emit, tick, pulseEvents]

theorem exec_host_portsGrow {w : HostWord} {i : Instr} {s t : State} (hd : decodeHost w = .ok i)
    (he : exec i s = .next t) : PortsGrow s t := by
  rcases (exec_host_next_cases hd he).2 with rfl | ⟨x, y, c, rfl⟩ | rfl | ⟨-, rfl⟩ | ⟨-, rfl⟩ | ⟨-, rfl⟩
  · exact .of_eq rfl rfl
  · exact drawPixel_portsGrow x y c (accept 1 s)
  · exact .of_eq rfl rfl
  · exact ⟨by rw [beginInit_trace]; exact List.prefix_append .., List.prefix_rfl⟩
  · exact .of_eq rfl rfl
  · exact .of_eq rfl rfl

/-- Settles O57: every kind of step appends to the trace and to the wire, or leaves them alone. -/
theorem traceOnlyGrows : Obligations.TraceOnlyGrows := by
  unfold Obligations.TraceOnlyGrows
  intro s t hstep
  rcases step_next_cases hstep with ⟨-, -, rfl⟩ | ⟨w, -, rfl⟩ | ⟨site, -, rfl⟩ | ⟨w, rest, i, -, -, hd, he⟩
  · exact ⟨List.prefix_rfl, List.prefix_rfl⟩
  · exact pollBusy_portsGrow w s
  · exact frameBody_portsGrow site s
  · exact exec_host_portsGrow (s := { s with requests := rest }) hd he

end Sys2Proof.Machine
end

