-- ==== Sys2Proof/Proofs/Encoding.lean ====
section
/-! PROOF. The encodings and what the fetch makes of them (rules R80, R81, R87, R90 to R93): decoder and encoder against
each other, the instruction a step runs, and when it is refused. -/

namespace Sys2Proof.Machine

/-! ## The decoder of host words -/

/-- What a host word decodes to, by its `op` (rules R81, R91). -/
inductive HostDecoding (w : HostWord) : Except DecodeError Instr → Prop where
  | clear (hop : opField w = 0) : HostDecoding w (.ok .clear)
  | drawPixel (hop : opField w = 1) :
      HostDecoding w (.ok (.drawPixel (xField w).toInt (yField w).toInt (Color.ofCode (colorField w))))
  | getSize (hop : opField w = 2) : HostDecoding w (.ok .getSize)
  | init (hop : opField w = 3) : HostDecoding w (.ok .init)
  | updateFrames (hop : opField w = 4) : HostDecoding w (.ok .updateFrames)
  | displayFrame (hop : opField w = 5) : HostDecoding w (.ok .displayFrame)
  | reserved (hop : opField w = 6 ∨ opField w = 7) : HostDecoding w (.error (.reservedOp (opField w)))

theorem hostDecoding_decodeHost (w : HostWord) : HostDecoding w (decodeHost w) := by
  unfold decodeHost
  split
  case h_1 h => exact .clear (BitVec.eq_of_toNat_eq h)
  case h_2 h => exact .drawPixel (BitVec.eq_of_toNat_eq h)
  case h_3 h => exact .getSize (BitVec.eq_of_toNat_eq h)
  case h_4 h => exact .init (BitVec.eq_of_toNat_eq h)
  case h_5 h => exact .updateFrames (BitVec.eq_of_toNat_eq h)
  case h_6 h => exact .displayFrame (BitVec.eq_of_toNat_eq h)
  case h_7 h0 h1 h2 h3 h4 h5 =>
    have hop : ∀ op : BitVec 3, op.toNat ≠ 0 → op.toNat ≠ 1 → op.toNat ≠ 2 → op.toNat ≠ 3 → op.toNat ≠ 4 →
        op.toNat ≠ 5 → op = 6 ∨ op = 7 := by decide
    exact .reserved (hop _ h0 h1 h2 h3 h4 h5)

theorem HostDecoding.of_eq {w : HostWord} {r : Except DecodeError Instr} (h : decodeHost w = r) : HostDecoding w r :=
  h ▸ hostDecoding_decodeHost w

/-- Settles O2: the four fields of an assembled word are the given ones. -/
theorem hostWordSelectsOperation : Obligations.HostWordSelectsOperation := by
  unfold Obligations.HostWordSelectsOperation
  intro op c x y
  have hview := hostDecoding_decodeHost (hostWord op c x y)
  rw [decode]
  generalize decodeHost (hostWord op c x y) = r at hview
  cases hview with
  | reserved hop =>
    rw [opField_hostWord] at hop
    rcases hop with rfl | rfl <;> simp
  | clear hop | drawPixel hop | getSize hop | init hop | updateFrames hop | displayFrame hop =>
    rw [opField_hostWord] at hop
    subst hop
    simp

/-- Settles O1: each word is the one of its four fields, or stands in the table of the wire commands. -/
theorem writtenOutWordsDecode : Obligations.WrittenOutWordsDecode := by
  unfold Obligations.WrittenOutWordsDecode
  have hhost := hostWordSelectsOperation
  exact ⟨hhost 1 2 249 121, hhost 1 1 0xFFFFFFFF 0, hhost 0 3 0x12345678 0xFFFFFFFF, hhost 3 0 0 0,
    decodeWire_script (.init 0), decodeWire_script (.init 3)⟩

/-! ## Decoder and encoder against each other -/

theorem wellFormed_drawPixel {x y : Int} {c : Color} :
    WellFormed (.drawPixel x y c) ↔ CoordInRange x ∧ CoordInRange y := by
  simp [WellFormed, wellFormed]

/-- Settles O3: a host operation comes back by the fields of its word, its coordinates by their 32-bit fields, and a
wire command by its row of the table. -/
theorem decodeOfEncode : Obligations.DecodeOfEncode := by
  unfold Obligations.DecodeOfEncode
  intro i hwf
  have hhost := hostWordSelectsOperation
  cases i with
  | drawPixel x y c =>
    obtain ⟨hx, hy⟩ := wellFormed_drawPixel.1 hwf
    have hdecode := hhost 1 c.code (BitVec.ofInt 32 x) (BitVec.ofInt 32 y)
    rwa [toInt_ofInt_of_inRange hx, toInt_ofInt_of_inRange hy, Color.ofCode_code] at hdecode
  | clear => exact hhost 0 0 0 0
  | getSize => exact hhost 2 0 0 0
  | init => exact hhost 3 0 0 0
  | updateFrames => exact hhost 4 0 0 0
  | displayFrame => exact hhost 5 0 0 0
  | _ => -- a wire command
    rfl

theorem wireRows_eq_script : ∀ r ∈ wireRows, r.opcode = scriptOpcode r.site ∧ r.instr = siteInstr r.site := by decide

/-- A byte decodes at a position exactly when the scripts hold it there (rule R93). -/
theorem decodeWire_ok_iff {site : Site} {b : Byte} {i : Instr} :
    decodeWire site b = .ok i ↔ b = scriptOpcode site ∧ i = siteInstr site := by
  constructor
  · intro h
    unfold decodeWire at h
    split at h
    case h_2 => cases h
    case h_1 r hfind =>
      cases h
      obtain ⟨rfl, rfl⟩ : r.site = site ∧ r.opcode = b := by simpa using List.find?_some hfind
      exact wireRows_eq_script r (List.mem_of_find?_eq_some hfind)
  · rintro ⟨rfl, rfl⟩
    exact decodeWire_script site

/-- Settles O5. -/
theorem oneOpcodeAtEachPosition : Obligations.OneOpcodeAtEachPosition := by
  unfold Obligations.OneOpcodeAtEachPosition
  exact fun _ _ _ => decodeWire_ok_iff

theorem encode_siteInstr (site : Site) : encode (siteInstr site) = .wire site (scriptOpcode site) := by
  cases site with
  | init n => revert n; decide
  | update => rfl
  | display => rfl

theorem wellFormed_siteInstr (site : Site) : WellFormed (siteInstr site) := by
  cases site with
  | init n => revert n; decide
  | update => rfl
  | display => rfl

/-- A draw decoded from a word is encoded as that word: the word has no field it does not read. -/
theorem encode_decoded_drawPixel {w : HostWord} (hop : opField w = 1) :
    encode (.drawPixel (xField w).toInt (yField w).toInt (Color.ofCode (colorField w))) = .host w := by
  rw [encode, BitVec.ofInt_toInt, BitVec.ofInt_toInt, Color.code_ofCode, ← hop, hostWord_fields]

/-- Settles O4, by what each `op` decodes to and by the one opcode of each position. -/
theorem decodedIsEncodable : Obligations.DecodedIsEncodable := by
  unfold Obligations.DecodedIsEncodable
  intro c i hd
  cases c with
  | wire site b =>
    obtain ⟨rfl, rfl⟩ := decodeWire_ok_iff.1 hd
    refine ⟨wellFormed_siteInstr site, ?_, nofun⟩
    rintro _ _ ⟨⟩
    exact encode_siteInstr site
  | host w =>
    suffices h : WellFormed i ∧ (∀ x y k, i = .drawPixel x y k → encode i = .host w) ∧
        ∃ v, encode i = .host v ∧ opField v = opField w by
      obtain ⟨hwf, hdraw, hop⟩ := h
      refine ⟨hwf, nofun, ?_⟩
      rintro _ ⟨⟩
      exact ⟨hdraw, hop⟩
    cases HostDecoding.of_eq hd with
    | drawPixel hop =>
      have henc := encode_decoded_drawPixel hop
      exact ⟨wellFormed_drawPixel.2 ⟨coordInRange_toInt _, coordInRange_toInt _⟩, fun _ _ _ _ => henc, w, henc, rfl⟩
    | clear hop | getSize hop | init hop | updateFrames hop | displayFrame hop =>
      exact ⟨rfl, nofun, _, rfl, by rw [opField_hostWord, hop]⟩

/-! ## The instruction a step runs -/

/-- Settles O6. -/
theorem stepRunsHostInstruction : Obligations.StepRunsHostInstruction := by
  unfold Obligations.StepRunsHostInstruction
  intro s w rest i hidle hreq hd
  have hhost : decodeHost w = .ok i := hd
  rw [step_of_idle_cons hidle hreq, hhost]

/-- Settles O7: the byte the scripts hold at a position decodes there. -/
theorem stepRunsScriptInstruction : Obligations.StepRunsScriptInstruction := by
  unfold Obligations.StepRunsScriptInstruction
  exact fun s site hsite => ⟨siteInstr site, decodeWire_script site, step_of_frame hsite⟩

/-! ## When a step is refused -/

/-- The host words an idle block refuses in a phase, with the refusal (rules R91, R92, R216). -/
def HostWordRefused (phase : Phase) (w : HostWord) (r : Refusal) : Prop :=
  (r = .reservedOp (opField w) ∧ (opField w = 6 ∨ opField w = 7)) ∨
  (r = .wrongPhase phase ∧ opField w = 3 ∧ phase ≠ .uninitialized) ∨
  (r = .wrongPhase phase ∧ (opField w = 4 ∨ opField w = 5) ∧ phase ≠ .ready)

theorem admitWhen_inEveryPhase_not_refused {op : BitVec 3} {body : State → State} {s : State} {r : Refusal}
    (h : s.seq = .idle) : admitWhen op inEveryPhase body s ≠ .refused r := by
  simp [admitWhen_refused_iff h, inEveryPhase]

theorem admitWhen_inPhase_refused_iff {op : BitVec 3} {p : Phase} {body : State → State} {s : State} {r : Refusal}
    (h : s.seq = .idle) :
    admitWhen op (inPhase p) body s = .refused r ↔ r = .wrongPhase s.phase ∧ s.phase ≠ p := by
  rw [admitWhen_refused_iff h, inPhase, decide_eq_false_iff_not, and_comm]

theorem step_of_idle_cons_refused_iff {s : State} {w : HostWord} {rest : List HostWord} {r : Refusal}
    (hidle : s.seq = .idle) (hreq : s.requests = w :: rest) :
    step s = .refused r ↔ HostWordRefused s.phase w r := by
  rw [step_of_idle_cons hidle hreq]
  have hview := hostDecoding_decodeHost w
  generalize decodeHost w = d at hview
  have hidle' : ({ s with requests := rest } : State).seq = .idle := hidle
  cases hview with
  | clear hop | drawPixel hop | getSize hop =>
    exact iff_of_false (admitWhen_inEveryPhase_not_refused hidle') (by simp [HostWordRefused, hop])
  | init hop | updateFrames hop | displayFrame hop =>
    exact (admitWhen_inPhase_refused_iff hidle').trans (by simp [HostWordRefused, hop])
  | reserved hop =>
    rcases hop with hop | hop <;> simp [HostWordRefused, hop, refusalOf, eq_comm]

/-- Settles O9: only an idle block with a host word to come can refuse, and then by what the word decodes to. -/
theorem refusedExactlyWhenTheSpecRefuses : Obligations.RefusedExactlyWhenTheSpecRefuses := by
  unfold Obligations.RefusedExactlyWhenTheSpecRefuses
  intro s r
  constructor
  · intro h
    cases hseq : s.seq with
    | wait w => rw [step_of_wait hseq] at h; cases h
    | frame site => rw [step_of_frame_body hseq] at h; cases h
    | idle =>
      cases hreq : s.requests with
      | nil => rw [step_of_idle_none hseq hreq] at h; cases h
      | cons w rest => exact ⟨rfl, w, rest, rfl, (step_of_idle_cons_refused_iff hseq hreq).1 h⟩
  · rintro ⟨hidle, w, rest, hreq, h⟩
    exact (step_of_idle_cons_refused_iff hidle hreq).2 h

end Sys2Proof.Machine
end

