-- ==== Sys2Proof/Proofs/WireOpcodes.lean ====
section
/-! PROOF. What a step writes to the SPI port (rules R90, R93, R137): a frame writes its position's opcode with DC low and
then at most one payload with DC high, and every other step writes nothing. -/

namespace Sys2Proof.Machine

/-! ## The events of a frame -/

/-- What the events of a command frame with an opcode can be (rules R137, R212). -/
inductive FrameEvents (op : Byte) : List Event → Prop where
  | opcodeFailed : FrameEvents op (failedWindowEvents .low [op])
  | opcodeAlone : FrameEvents op (windowEvents .low [op])
  | dataFailed (bytes : List Byte) : FrameEvents op (windowEvents .low [op] ++ failedWindowEvents .high bytes)
  | dataSent (bytes : List Byte) : FrameEvents op (windowEvents .low [op] ++ windowEvents .high bytes)

/-- The events caused on the way from `s` to `t` are those of a command frame. -/
def CausesFrame (op : Byte) (s t : State) : Prop := ∃ events, FrameEvents op events ∧ t.trace = s.trace ++ events

theorem transmit_causesFrame {after : State → State} (ha : ∀ u, (after u).trace = u.trace) (op : Byte)
    (payload : List Byte) (s : State) : CausesFrame op s (transmit op payload after s) := by
  unfold transmit
  rcases sendCommand_cases op payload s with ⟨-, -, hr⟩ | ⟨-, -, -, hr⟩ | ⟨n, -, hr⟩ | ⟨n, -, -, -, hr⟩ <;> rw [hr]
  · exact ⟨_, .opcodeAlone, ha _⟩
  · exact ⟨_, .dataSent payload, (ha _).trans (List.append_assoc ..)⟩
  · exact ⟨_, .opcodeFailed, rfl⟩
  · exact ⟨_, .dataFailed payload, List.append_assoc ..⟩

/-- The data half of W_DTM is one CS window with DC high, after the loops have run in the working registers. -/
theorem sendFrame_eq_csWindow (s : State) :
    ∃ bytes w, sendFrame s = csWindow .high bytes { s with work := w } := ⟨_, _, rfl⟩

theorem frameUpdate_causesFrame (s : State) : CausesFrame Config.OP_DTM s (frameUpdate s) := by
  cases h : nextSpi s with
  | error n =>
    rw [frameUpdate_of_opcode_error h]
    exact ⟨_, .opcodeFailed, rfl⟩
  | ok =>
    rw [frameUpdate_of_opcode_ok h]
    obtain ⟨bytes, w, hsend⟩ := sendFrame_eq_csWindow (afterWindow .low [Config.OP_DTM] s)
    rw [hsend]
    rcases csWindow_cases .high bytes { afterWindow .low [Config.OP_DTM] s with work := w } with
      ⟨-, hr⟩ | ⟨n, -, hr⟩ <;> rw [hr]
    · exact ⟨_, .dataSent bytes, List.append_assoc ..⟩
    · exact ⟨_, .dataFailed bytes, List.append_assoc ..⟩

theorem frameBody_causesFrame (site : Site) (s : State) : CausesFrame (scriptOpcode site) s (frameBody site s) := by
  cases site with
  | init n =>
    rcases initSite_cases n with rfl | ⟨k, hk⟩ | rfl
    · exact transmit_causesFrame (after := goToWait _ _) (fun _ => rfl) ..
    · have hop : Config.CFG_OPS[k] = scriptOpcode (configSite k) := initOpcodes_config k
      rw [hk, frameBody_configSite, configEntry_eq, hop]
      exact transmit_causesFrame (after := afterConfig k) (fun _ => rfl) _ _ (loadEntry k s)
    · exact transmit_causesFrame (after := goToWait _ _) (fun _ => rfl) ..
  | update => exact frameUpdate_causesFrame s
  | display => exact transmit_causesFrame (after := goToRefreshWait) (fun _ => rfl) ..

/-! ## After the opcode write everything is data -/

/-- Events in which nothing is written but after a drive of DC high, and DC is not driven low again. -/
def WritesOnlyData (events : List Event) : Prop :=
  opcodeSequence .low events = [] ∧ Event.drive .dc .low ∉ events ∧
    ∀ bytes a before after, events = before ++ .spiWrite bytes a :: after → Event.drive .dc .high ∈ before

theorem writesOnlyData_nil : WritesOnlyData [] := ⟨rfl, by simp, by simp⟩

theorem WritesOnlyData.csHigh {events : List Event} (h : WritesOnlyData events) :
    WritesOnlyData (.drive .cs .high :: events) := by
  obtain ⟨hops, hlow, hhigh⟩ := h
  refine ⟨hops, by simpa using hlow, fun bytes a before after heq => ?_⟩
  cases before with
  | nil => simp at heq
  | cons e before => exact List.mem_cons_of_mem e (hhigh bytes a before after (List.cons.inj heq).2)

theorem writesOnlyData_dcHigh {events : List Event} (hops : opcodeSequence .high events = [])
    (hlow : Event.drive .dc .low ∉ events) : WritesOnlyData (.drive .dc .high :: events) := by
  refine ⟨hops, by simpa using hlow, fun bytes a before after heq => ?_⟩
  cases before with
  | nil => simp at heq
  | cons e before => exact (List.cons.inj heq).1 ▸ List.mem_cons_self ..

theorem writesOnlyData_window (bytes : List Byte) : WritesOnlyData (windowEvents .high bytes) :=
  writesOnlyData_dcHigh rfl (by simp)

theorem writesOnlyData_failedWindow (bytes : List Byte) : WritesOnlyData (failedWindowEvents .high bytes) :=
  writesOnlyData_dcHigh rfl (by simp)

/-- A frame writes its opcode first, with DC low, and after it only data. -/
theorem FrameEvents.opcode_first {op : Byte} {events : List Event} (h : FrameEvents op events) :
    ∃ r rest, events = [.drive .dc .low, .drive .cs .low, .spiWrite [op] r] ++ rest ∧ WritesOnlyData rest := by
  cases h with
  | opcodeFailed => exact ⟨.error, _, rfl, writesOnlyData_nil⟩
  | opcodeAlone => exact ⟨.ok, _, rfl, writesOnlyData_nil.csHigh⟩
  | dataFailed bytes => exact ⟨.ok, _, rfl, (writesOnlyData_failedWindow bytes).csHigh⟩
  | dataSent bytes => exact ⟨.ok, _, rfl, (writesOnlyData_window bytes).csHigh⟩

/-! ## The steps that write nothing -/

/-- No byte was written to the SPI port on the way from `s` to `t`. -/
def WritesNothing (s t : State) : Prop :=
  t.wire = s.wire ∧ ∀ bytes r, Event.spiWrite bytes r ∈ t.trace → Event.spiWrite bytes r ∈ s.trace

theorem WritesNothing.of_append {s t : State} {events : List Event} (hwire : t.wire = s.wire)
    (htrace : t.trace = s.trace ++ events) (hnone : ∀ bytes r, Event.spiWrite bytes r ∉ events) : WritesNothing s t := by
  refine ⟨hwire, fun bytes r hmem => ?_⟩
  rw [htrace, List.mem_append] at hmem
  exact hmem.resolve_right (hnone bytes r)

theorem WritesNothing.of_eq {s t : State} (hwire : t.wire = s.wire) (htrace : t.trace = s.trace) : WritesNothing s t :=
  .of_append (events := []) hwire (by simp [htrace]) (by simp)

theorem pollBusy_writesNothing (w : WaitPoint) (s : State) : WritesNothing s (pollBusy w s) := by
  cases hb : nextBusy s with
  | low =>
    rw [pollBusy_of_low hb]
    exact .of_append (dropBusy_wire s) rfl (by simp)
  | high =>
    rw [pollBusy_of_high hb]
    refine .of_append (events := [.sample .high]) ?_ ?_ (by simp)
    · cases w <;> exact dropBusy_wire s
    · cases w <;> rfl

theorem drawPixel_writesNothing (x y : Int) (c : Color) (s : State) : WritesNothing s (drawPixel x y c s) := by
  unfold drawPixel drawLoaded
  split <;> exact .of_eq rfl rfl

theorem exec_host_writesNothing {w : HostWord} {i : Instr} {s t : State} (hd : decodeHost w = .ok i)
    (he : exec i s = .next t) : WritesNothing s t := by
  rcases (exec_host_next_cases hd he).2 with rfl | ⟨x, y, c, rfl⟩ | rfl | ⟨-, rfl⟩ | ⟨-, rfl⟩ | ⟨-, rfl⟩
  · exact .of_eq rfl rfl
  · exact drawPixel_writesNothing x y c (accept 1 s)
  · exact .of_eq rfl rfl
  · exact .of_append rfl (beginInit_trace (accept 3 s)) (by simp [pulseEvents])
  · exact .of_eq rfl rfl
  · exact .of_eq rfl rfl

theorem step_writesNothing {s t : State} (hstep : step s = .next t) (hs : ∀ site, s.seq ≠ .frame site) :
    WritesNothing s t := by
  rcases step_next_cases hstep with ⟨-, -, rfl⟩ | ⟨w, -, rfl⟩ | ⟨site, hsite, -⟩ | ⟨w, rest, i, -, -, hd, he⟩
  · exact .of_eq rfl rfl
  · exact pollBusy_writesNothing w s
  · exact absurd hsite (hs site)
  · exact exec_host_writesNothing (s := { s with requests := rest }) hd he

/-- Settles O58: a step at a position causes the events of a command frame with that position's opcode, and no other
step uses the SPI port. -/
theorem onlyScriptOpcodesAreWritten : Obligations.OnlyScriptOpcodesAreWritten := by
  unfold Obligations.OnlyScriptOpcodesAreWritten
  intro s t hstep
  refine ⟨fun site hsite => ?_, step_writesNothing hstep⟩
  rw [step_of_frame_body hsite] at hstep
  cases hstep
  obtain ⟨events, hevents, htrace⟩ := frameBody_causesFrame site s
  obtain ⟨r, rest, rfl, hdata⟩ := hevents.opcode_first
  exact ⟨r, rest, by rw [htrace, List.append_assoc], hdata⟩

end Sys2Proof.Machine
end

