-- ==== Sys2Proof/Proofs/BufferOps.lean ====
section
/-! PROOF. The operations of the bitplane store (rules R110 to R128): each as one change of the planes that leaves the
rest of the block alone, and how draws act on one another. -/

namespace Sys2Proof.Machine

/-! ## What an operation of the store leaves alone -/

/-- The phase, the lines and the ports are as they were. -/
def StoreFrame (s t : State) : Prop := t.phase = s.phase ∧ SameLines s t ∧ SamePorts s t

theorem storeFrame_refl (s : State) : StoreFrame s s := ⟨rfl, ⟨rfl, rfl, rfl⟩, rfl, rfl, rfl, rfl⟩

theorem StoreFrame.symm {s t : State} (h : StoreFrame s t) : StoreFrame t s := by
  obtain ⟨hphase, ⟨hcs, hdc, hrst⟩, htrace, hwire, hbusy, hspi⟩ := h
  exact ⟨hphase.symm, ⟨hcs.symm, hdc.symm, hrst.symm⟩, htrace.symm, hwire.symm, hbusy.symm, hspi.symm⟩

theorem StoreFrame.trans {s t u : State} (h : StoreFrame s t) (k : StoreFrame t u) : StoreFrame s u := by
  obtain ⟨hphase, ⟨hcs, hdc, hrst⟩, htrace, hwire, hbusy, hspi⟩ := h
  obtain ⟨kphase, ⟨kcs, kdc, krst⟩, ktrace, kwire, kbusy, kspi⟩ := k
  exact ⟨kphase.trans hphase, ⟨kcs.trans hcs, kdc.trans hdc, krst.trans hrst⟩, ktrace.trans htrace,
    kwire.trans hwire, kbusy.trans hbusy, kspi.trans hspi⟩

/-- From `s` to `t` an operation of the store ran to its end: the planes became `pl`, `reply` was returned, and but for
the working registers and the count of free values nothing else changed. -/
structure StoreDone (pl : Planes) (reply : Option Size) (s t : State) : Prop where
  planes : t.planes = pl
  res : t.res = 0
  frame : StoreFrame s t
  seq : t.seq = .idle
  requests : t.requests = s.requests
  reply : t.reply = reply

/-- The end of an operation in a state that differs from `s` in the planes and the working registers. -/
theorem storeDone_endOperation (s : State) (pl : Planes) (w : WorkRegs) (reply : Option Size) :
    StoreDone pl reply s (endOperation RES_OK reply { s with planes := pl, work := w }) :=
  ⟨rfl, rfl, storeFrame_refl s, rfl, rfl, rfl⟩

theorem exec_clear_done {s : State} (hidle : s.seq = .idle) :
    ∃ t, exec .clear s = .next t ∧ StoreDone clearPlanes none s t :=
  ⟨_, admitWhen_of_admitted hidle rfl, storeDone_endOperation s ..⟩

theorem exec_getSize_done {s : State} (hidle : s.seq = .idle) :
    ∃ t, exec .getSize s = .next t ∧ StoreDone s.planes (some canvasSize) s t :=
  ⟨_, admitWhen_of_admitted hidle rfl, storeDone_endOperation s ..⟩

/-- A draw at the coordinates of a pixel is the draw at its bit position (rules R56, R112). -/
@[simp] theorem drawnAt_coords (pl : Planes) (px : Pixel) (c : Color) :
    drawnAt pl (px.x.val, px.y.val, c) = drawPlanes (planeIdx px) (planeBit px) c.code pl := by
  simp only [drawnAt, pixelAt_coords]

theorem drawnAt_of_not_inBounds {x y : Int} (h : ¬InBounds x y) (pl : Planes) (c : Color) :
    drawnAt pl (x, y, c) = pl := by
  simp only [drawnAt, pixelAt_of_not_inBounds h]

/-- In bounds or not, DRAW_PIXEL does to the planes what an element of a list of draws does (rules R112, R113,
R115). -/
theorem exec_drawPixel_done {s : State} {x y : Int} {c : Color} (hidle : s.seq = .idle)
    (hwf : WellFormed (.drawPixel x y c)) :
    ∃ t, exec (.drawPixel x y c) s = .next t ∧ StoreDone (drawnAt s.planes (x, y, c)) none s t := by
  refine ⟨_, exec_drawPixel hidle x y c, ?_⟩
  by_cases hin : InBounds x y
  · obtain ⟨px, rfl, rfl, hdraw⟩ := drawPixel_of_inBounds hin c (accept 1 s)
    rw [hdraw, paint, loadAddr_work, paintedPlanes_withAddr, drawnAt_coords]
    exact storeDone_endOperation s ..
  · obtain ⟨hx, hy⟩ := wellFormed_drawPixel.1 hwf
    rw [drawPixel_of_not_inBounds hx hy hin, drawnAt_of_not_inBounds hin]
    exact storeDone_endOperation s ..

theorem wellFormed_drawPixel_of_inBounds {x y : Int} (h : InBounds x y) (c : Color) : WellFormed (.drawPixel x y c) :=
  wellFormed_drawPixel.2 (inRange_of_inBounds h)

theorem inBounds_coords (px : Pixel) : InBounds px.x.val px.y.val := by
  have hx := px.x.isLt
  have hy := px.y.isLt
  exact ⟨by omega, by omega, by omega, by omega⟩

theorem exec_drawPixel_coords_done {s : State} (hidle : s.seq = .idle) (px : Pixel) (c : Color) :
    ∃ t, exec (.drawPixel px.x.val px.y.val c) s = .next t ∧
      StoreDone (drawPlanes (planeIdx px) (planeBit px) c.code s.planes) none s t := by
  rw [← drawnAt_coords]
  exact exec_drawPixel_done hidle (wellFormed_drawPixel_of_inBounds (inBounds_coords px) c)

/-! ## At most one plane holds 0 -/

theorem colorBits_mem (c : Color) :
    colorBits c ∈ [colorBits .black, colorBits .white, colorBits .yellow, colorBits .red] := by
  cases c <;> decide

/-- Settles O51: a step leaves every position as it is, makes it white, or gives it the bits of a colour. -/
theorem stepKeepsColoursExclusive : Obligations.StepKeepsColoursExclusive := by
  unfold Obligations.StepKeepsColoursExclusive PlanesCanonical ColoursExclusive
  intro s t hwf h hstep idx bit
  rcases step_planes_cases hstep with heq | heq | ⟨px, c, heq⟩ <;> rw [heq]
  · exact h idx bit
  · rw [bitsAt_clearPlanes]
    exact colorBits_mem .white
  · rw [bitsAt_drawPlanes hwf]
    split
    · exact colorBits_mem c
    · exact h idx bit

/-! ## One draw -/

/-- A plane byte is fixed by its bit positions. -/
theorem planeRead_eq_of_bitsAt {a b : Planes} {idx : Fin 3813} (h : ∀ bit, bitsAt a idx bit = bitsAt b idx bit)
    (p : Plane) : planeRead a p idx = planeRead b p idx := by
  refine byte_ext fun bit => ?_
  obtain ⟨hbw, hred, hyellow⟩ := by simpa only [bitsAt, Prod.mk.injEq] using h bit
  cases p
  · exact hbw
  · exact hred
  · exact hyellow

/-- Settles O14: the draw's bit position is the pixel's, and `PlaneAddr` on integers is `PlaneAddr` on the pixel. -/
theorem drawInBoundsSetsOnePosition : Obligations.DrawInBoundsSetsOnePosition := by
  unfold Obligations.DrawInBoundsSetsOnePosition PlanesCanonical
  intro s x y c hidle hwf hin
  obtain ⟨px, rfl, rfl, -⟩ := drawPixel_of_inBounds hin c s
  obtain ⟨t, hexec, hplanes, hres, ⟨hphase, hlines, hports⟩, hseq, hreq, hreply⟩ :=
    exec_drawPixel_coords_done hidle px c
  have hbits (j b) := bitsAt_drawPlanes hwf (planeIdx px) j (planeBit px) b c
  refine ⟨t, hexec, ⟨planeIdx px, planeBit px, ?_, ?_, ?_, fun j b hne => ?_, fun p j hne => ?_⟩, hres, hphase, hlines,
    hports, hseq, hreq, hreply⟩
  · simp only [planeIdx]
    omega
  · simp only [planeBit]
    omega
  · rw [hplanes, hbits, if_pos ⟨rfl, rfl⟩]
  · rw [hplanes, hbits, if_neg hne]
  · rw [hplanes]
    exact planeRead_eq_of_bitsAt (fun b => by rw [hbits, if_neg fun h => hne h.1]) p

/-- Settles O15: the bounds check fails, so the planes are those of a dropped element. -/
theorem drawOutOfBoundsIsDropped : Obligations.DrawOutOfBoundsIsDropped := by
  unfold Obligations.DrawOutOfBoundsIsDropped
  intro s x y c hidle hwf hout
  have hnot : ¬InBounds x y := by
    rintro ⟨hx0, hx, hy0, hy⟩
    omega
  obtain ⟨t, hexec, hplanes, hres, ⟨hphase, hlines, hports⟩, hseq, hreq, hreply⟩ := exec_drawPixel_done hidle hwf
  rw [drawnAt_of_not_inBounds hnot] at hplanes
  exact ⟨t, hexec, hplanes, hres, hphase, hlines, hports, hseq, hreq, hreply⟩

/-! ## Draws one after another -/

/-- A draw leaves nothing of an earlier one at its bit position (rule R123). -/
theorem drawPlanes_drawPlanes {pl : Planes} (h : pl.wf) (idx : Fin 3813) (bit : Fin 8) (c d : Color) :
    drawPlanes idx bit d.code (drawPlanes idx bit c.code pl) = drawPlanes idx bit d.code pl := by
  have hc := drawPlanes_wf h idx bit c.code
  refine Planes.ext_bits (drawPlanes_wf hc ..) (drawPlanes_wf h ..) fun j b => ?_
  rw [bitsAt_drawPlanes hc, bitsAt_drawPlanes h, bitsAt_drawPlanes h]
  split <;> rfl

theorem drawnAt_drawnAt {pl : Planes} (h : pl.wf) (x y : Int) (c d : Color) :
    drawnAt (drawnAt pl (x, y, c)) (x, y, d) = drawnAt pl (x, y, d) := by
  unfold drawnAt
  cases pixelAt x y with
  | none => rfl
  | some px => exact drawPlanes_drawPlanes h ..

/-- Two draws at the same coordinates, of which the second alone counts. -/
theorem exec_drawPixel_twice {s : State} {x y : Int} {c : Color} (hidle : s.seq = .idle) (hcanon : PlanesCanonical s)
    (hwf : WellFormed (.drawPixel x y c)) (d : Color) :
    ∃ t u, exec (.drawPixel x y c) s = .next t ∧ StoreDone (drawnAt s.planes (x, y, c)) none s t ∧
      exec (.drawPixel x y d) t = .next u ∧ StoreDone (drawnAt s.planes (x, y, d)) none s u := by
  obtain ⟨t, htexec, ht⟩ := exec_drawPixel_done hidle hwf
  obtain ⟨u, huexec, hu⟩ := exec_drawPixel_done (c := d) ht.seq hwf
  refine ⟨t, u, htexec, ht, huexec, ?_, hu.res, ht.frame.trans hu.frame, hu.seq, hu.requests.trans ht.requests,
    hu.reply⟩
  rw [hu.planes, ht.planes, drawnAt_drawnAt hcanon]

/-- Settles O17: the second draw is the last one at the pixel, and of the same colour. -/
theorem drawIsIdempotent : Obligations.DrawIsIdempotent := by
  unfold Obligations.DrawIsIdempotent
  intro s x y c hidle hcanon hwf
  obtain ⟨t, u, htexec, ht, huexec, hu⟩ := exec_drawPixel_twice hidle hcanon hwf c
  exact ⟨t, u, htexec, huexec, hu.planes.trans ht.planes.symm⟩

/-- Settles O18: two draws from `s` end as the last one alone does from `s`. -/
theorem lastDrawWins : Obligations.LastDrawWins := by
  unfold Obligations.LastDrawWins
  intro s x y c d hidle hcanon hwf
  obtain ⟨t, u, htexec, -, huexec, hu⟩ := exec_drawPixel_twice hidle hcanon hwf d
  obtain ⟨v, hvexec, hv⟩ := exec_drawPixel_done (c := d) hidle hwf
  obtain ⟨hphase, hlines, hports⟩ := hv.frame.symm.trans hu.frame
  refine ⟨t, u, v, htexec, huexec, hvexec, hu.planes.trans hv.planes.symm, hu.res.trans hv.res.symm, hphase, hlines,
    hports, hu.seq.trans hv.seq.symm, hu.requests.trans hv.requests.symm, hu.reply.trans hv.reply.symm, ?_⟩
  rintro px rfl hpx
  simp only [hu.planes, drawnAt, hpx]
  rw [bitsAt_drawPlanes hcanon, if_pos ⟨rfl, rfl⟩]
  rfl

/-- The step that takes the host word of a draw. -/
theorem step_drawPixel_done {s : State} {x y : Int} {c : Color} {rest : List HostWord} (hidle : s.seq = .idle)
    (hwf : WellFormed (.drawPixel x y c))
    (hreq : s.requests = hostWord 1 c.code (BitVec.ofInt 32 x) (BitVec.ofInt 32 y) :: rest) :
    ∃ t, step s = .next t ∧ StoreDone (drawnAt s.planes (x, y, c)) none { s with requests := rest } t := by
  have hdecode : decodeHost (hostWord 1 c.code (BitVec.ofInt 32 x) (BitVec.ofInt 32 y)) = .ok (.drawPixel x y c) :=
    decodeOfEncode _ hwf
  rw [step_of_idle_cons hidle hreq, hdecode]
  exact exec_drawPixel_done (s := { s with requests := rest }) hidle hwf

/-- A list of draws, with `res` 0 from its first draw on. -/
theorem runFor_draws (l : List (Int × Int × Color)) {s : State} {rest : List HostWord} (hidle : s.seq = .idle)
    (hwf : ∀ d ∈ l, WellFormed (.drawPixel d.1 d.2.1 d.2.2))
    (hreq : s.requests =
      l.map (fun d => hostWord 1 d.2.2.code (BitVec.ofInt 32 d.1) (BitVec.ofInt 32 d.2.1)) ++ rest) :
    ∃ t, runFor l.length s = .next t ∧ t.planes = l.foldl drawnAt s.planes ∧ t.requests = rest ∧ t.seq = .idle ∧
      StoreFrame s t ∧ (l ≠ [] ∨ s.res = 0 → t.res = 0) := by
  induction l generalizing s with
  | nil => exact ⟨s, rfl, rfl, hreq, hidle, storeFrame_refl s, by simp⟩
  | cons d l ih =>
    obtain ⟨u, hstep, hu⟩ := step_drawPixel_done hidle (hwf d List.mem_cons_self) hreq
    obtain ⟨t, hrun, hplanes, htreq, hseq, hframe, hres⟩ :=
      ih hu.seq (fun e he => hwf e (List.mem_cons_of_mem d he)) hu.requests
    refine ⟨t, ?_, ?_, htreq, hseq, hu.frame.trans hframe, fun _ => hres (.inr hu.res)⟩
    · rw [List.length_cons, runFor, hstep]
      exact hrun
    · rw [hplanes, hu.planes]
      rfl

/-- Settles O19, by `runFor_draws`. -/
theorem drawListAppliesInOrder : Obligations.DrawListAppliesInOrder := by
  unfold Obligations.DrawListAppliesInOrder
  intro l s rest hidle hwf hreq
  obtain ⟨t, hrun, hplanes, htreq, hseq, ⟨hphase, hlines, hports⟩, hres⟩ := runFor_draws l hidle hwf hreq
  exact ⟨t, hrun, hplanes, htreq, hseq, hphase, hlines, hports, fun hne => hres (.inl hne)⟩

/-! ## The pixels a draw colours -/

/-- The colour read at a pixel after a draw at another, or at the same (rule R128). -/
theorem pixelCode_drawPlanes {pl : Planes} (h : pl.wf) (p q : Pixel) (c : Color) :
    (SharesBit p q → pixelCode (drawPlanes (planeIdx p) (planeBit p) c.code pl) q = c.code) ∧
      (¬SharesBit p q → pixelCode (drawPlanes (planeIdx p) (planeBit p) c.code pl) q = pixelCode pl q) := by
  refine ⟨fun hshare => codeAt_of_colorBits ?_, fun hshare => codeAt_eq_of_bitsAt ?_⟩
  · rw [bitsAt_drawPlanes h]
    exact if_pos (sharesBit_comm.1 hshare)
  · rw [bitsAt_drawPlanes h]
    exact if_neg (mt sharesBit_comm.1 hshare)

/-- Settles O24: pixels that share the position have one `PlaneAddr`, so a draw at any of them is the same draw. -/
theorem drawColoursTheSharingPixels : Obligations.DrawColoursTheSharingPixels := by
  unfold Obligations.DrawColoursTheSharingPixels
  intro s p c hidle hcanon
  obtain ⟨t, htexec, ht⟩ := exec_drawPixel_coords_done hidle p c
  refine ⟨t, htexec, fun q => ?_⟩
  obtain ⟨hshare, hother⟩ := pixelCode_drawPlanes hcanon p q c
  rw [ht.planes]
  refine ⟨hshare, hother, fun ⟨hidx, hbit⟩ => ?_⟩
  obtain ⟨u, huexec, hu⟩ := exec_drawPixel_coords_done hidle q c
  exact ⟨u, huexec, by rw [hu.planes, hidx, hbit]⟩

/-- Settles O20: the draw's bits are computed in clear planes. -/
theorem blackAtOriginClearsBitSeven : Obligations.BlackAtOriginClearsBitSeven := by
  unfold Obligations.BlackAtOriginClearsBitSeven
  intro s hidle hclear
  obtain ⟨t, hexec, ht⟩ := exec_drawPixel_coords_done hidle ⟨0, 0⟩ .black
  refine ⟨t, hexec, ?_⟩
  rw [ht.planes, hclear]
  decide

/-! ## CLEAR and GET_SIZE -/

/-- Settles O13: the planes CLEAR leaves read 0xFF everywhere. -/
theorem clearSetsEveryByte : Obligations.ClearSetsEveryByte := by
  unfold Obligations.ClearSetsEveryByte
  refine ⟨fun w hop => by rw [decode, decodeHost, hop]; rfl, fun s hidle => ?_⟩
  obtain ⟨t, hexec, hplanes, hres, ⟨hphase, hlines, hports⟩, hseq, hreq, hreply⟩ := exec_clear_done hidle
  exact ⟨t, hexec, by rw [hplanes]; exact planeRead_clearPlanes, hres, hphase, hlines, hports, hseq, hreq, hreply⟩

/-- Settles O16: GET_SIZE is the end of an operation with the pair as its value. -/
theorem getSizeReturnsTheCanvas : Obligations.GetSizeReturnsTheCanvas := by
  unfold Obligations.GetSizeReturnsTheCanvas
  refine ⟨fun w hop => by rw [decode, decodeHost, hop]; rfl, fun s hidle => ?_⟩
  obtain ⟨t, hexec, hplanes, hres, ⟨hphase, hlines, hports⟩, hseq, hreq, hreply⟩ := exec_getSize_done hidle
  exact ⟨t, hexec, hreply, hres, hplanes, hphase, hlines, hports, hseq, hreq⟩

/-- Settles O21: the three bits of every position are those of white. -/
theorem clearThenEveryPixelIsWhite : Obligations.ClearThenEveryPixelIsWhite := by
  unfold Obligations.ClearThenEveryPixelIsWhite
  intro s hidle
  obtain ⟨t, hexec, ht⟩ := exec_clear_done hidle
  refine ⟨t, hexec, ?_⟩
  rw [ht.planes]
  exact ⟨planeRead_clearPlanes, fun px => codeAt_of_colorBits (c := .white) (bitsAt_clearPlanes ..)⟩

end Sys2Proof.Machine
end

