-- ==== Sys2Proof/Proofs/WireProtocol.lean ====
section
/-! PROOF. The wire protocol (rules R136, R137, R139, R140, R150): what SendCommand leaves, runs of busy-wait turns, and
the reset line from the reset pulse on. -/

namespace Sys2Proof.Machine

/-! ## Steps with no instruction to run -/

/-- Settles O8. -/
theorem stepIdlesOrPolls : Obligations.StepIdlesOrPolls := by
  unfold Obligations.StepIdlesOrPolls
  exact fun s => ⟨step_of_idle_none, fun w => step_of_wait⟩

/-! ## SendCommand -/

theorem afterWindow_opcode (op : Byte) (s : State) : afterWindow .low [op] s = sentCommand op [] s := by
  simp [afterWindow, sentCommand, commandEvents, commandWire, commandLength]

/-- A second window, with the payload, makes the whole command. -/
theorem afterWindow_payload (op : Byte) {payload : List Byte} (hp : payload ≠ []) (s : State) :
    afterWindow .high payload (afterWindow .low [op] s) = sentCommand op payload s := by
  simp [afterWindow, sentCommand, commandEvents, commandWire, commandLength, dropSpi_eq, hp, BitVec.add_assoc]

theorem sendCommand_of_writesOk {s : State} (op : Byte) {payload : List Byte} (h : WritesOk payload s) :
    sendCommand op payload s = .ok (sentCommand op payload s) := by
  obtain ⟨hopcode, hpayload⟩ := h
  by_cases hp : payload = []
  · rw [hp, sendCommand_nil_of_ok op hopcode, afterWindow_opcode]
  · rw [sendCommand_of_ok op hp hopcode (hpayload hp), afterWindow_payload op hp]

/-- Settles O33: a failing write leaves the state of its CS window, with the opcode's window before it when it is the
payload's. -/
theorem sendCommandEvents : Obligations.SendCommandEvents := by
  unfold Obligations.SendCommandEvents
  intro s op payload
  refine ⟨sendCommand_of_writesOk op, fun n hopcode => ?_, fun n hp hopcode hpayload => ?_⟩
  · exact ⟨_, sendCommand_of_opcode_error op payload hopcode, rfl, rfl, rfl, rfl⟩
  · exact ⟨_, sendCommand_of_payload_error op hp hopcode hpayload, rfl, rfl, rfl, List.append_assoc ..⟩

/-! ## Runs of busy-wait turns -/

/-- A turn that samples a queued `low`. -/
theorem step_of_low {w : WaitPoint} {s : State} {q : List Level} (hs : s.seq = .wait w) (hq : s.busyIn = .low :: q) :
    step s = .next { s with trace := s.trace ++ lowTurns 1, busyIn := q } := by
  rw [step_of_wait hs, pollBusy_of_low (nextBusy_cons hq), dropBusy_eq]
  simp [hq, lowTurns]

/-- The turn that samples a queued `high`. -/
theorem step_of_high {w : WaitPoint} {s : State} {q : List Level} (hs : s.seq = .wait w) (hq : s.busyIn = .high :: q) :
    step s = .next (afterWait w { s with
      trace := s.trace ++ [.sample .high], busyIn := q, work := { s.work with upc := s.work.upc + 1 } }) := by
  rw [step_of_wait hs, pollBusy_of_high (nextBusy_cons hq), dropBusy_eq]
  simp [hq]

theorem lowTurns_succ (n : Nat) : lowTurns (n + 1) = lowTurns 1 ++ lowTurns n := by
  simp [lowTurns, List.replicate_succ]

/-- Queued `low` answers are used up one turn each, the wait standing (rule R139). -/
theorem runFor_lowTurns {w : WaitPoint} {s : State} {n : Nat} {q : List Level} (hs : s.seq = .wait w)
    (hq : s.busyIn = List.replicate n .low ++ q) :
    runFor n s = .next { s with trace := s.trace ++ lowTurns n, busyIn := q } := by
  induction n generalizing s with
  | zero =>
    obtain rfl : s.busyIn = q := hq
    simp [runFor, lowTurns]
  | succ n ih =>
    rw [List.replicate_succ, List.cons_append] at hq
    rw [runFor, step_of_low hs hq, lowTurns_succ n, ← List.append_assoc]
    exact ih (s := { s with trace := s.trace ++ lowTurns 1, busyIn := List.replicate n .low ++ q }) hs rfl

/-- Settles O40: the turn after the `low` ones samples `high`. -/
theorem busyWaitEndsAtFirstHigh : Obligations.BusyWaitEndsAtFirstHigh := by
  unfold Obligations.BusyWaitEndsAtFirstHigh
  intro w s n q hs
  refine ⟨runFor_lowTurns hs, fun hq => ?_⟩
  rw [waitAnswers, List.append_assoc] at hq
  rw [runFor_add n 1 (runFor_lowTurns hs hq), runFor_one, waitEvents, ← List.append_assoc]
  exact step_of_high (s := { s with trace := s.trace ++ lowTurns n, busyIn := .high :: q }) hs rfl

/-! ## The reset pulse -/

/-- INIT's first step: the four events of the reset pulse, RST left high (rules R140, R150). -/
theorem beginInit_accept (s : State) :
    beginInit (accept 3 s) = { s with
      phase := .resetPulsed
      seq   := .wait .afterReset
      rst   := .high
      trace := s.trace ++ pulseEvents
      work  := { s.work with op := 3, upc := 4 } } := by
  rw [← beginInit_trace s]
  rfl

/-- Settles O42. -/
theorem initBeginsWithResetPulse : Obligations.InitBeginsWithResetPulse := by
  unfold Obligations.InitBeginsWithResetPulse
  intro s hidle hphase
  have hexec : exec .init s = .next (beginInit (accept 3 s)) := admitWhen_of_admitted hidle (decide_eq_true hphase)
  rw [hexec, beginInit_accept]

/-! ## The reset line -/

theorem pollBusy_rst (w : WaitPoint) (s : State) : (pollBusy w s).rst = s.rst := by
  cases h : nextBusy s with
  | low => rw [pollBusy_of_low h]; exact dropBusy_rst s
  | high => rw [pollBusy_of_high h]; cases w <;> exact dropBusy_rst s

theorem transmit_rst {after : State → State} (ha : ∀ u, (after u).rst = u.rst) (op : Byte) (payload : List Byte)
    (s : State) : (transmit op payload after s).rst = s.rst := by
  rcases transmit_cases op payload after s with ⟨u, ⟨-, -, hrst, -⟩, -, -, heq⟩ | ⟨u, ⟨-, -, hrst, -⟩, heq⟩ <;> rw [heq]
  · exact (ha u).trans hrst
  · exact hrst

/-- The frame of UPDATE_FRAMES ends its operation, normally or by TransferError, after a use of the ports. -/
theorem frameUpdate_cases (s : State) :
    ∃ u, PortFrame s u ∧ (frameUpdate s = complete u ∨ frameUpdate s = transferError u) := by
  cases h : nextSpi s with
  | error n => exact ⟨_, atFailedWindow_frame .low [Config.OP_DTM] n s, .inr (frameUpdate_of_opcode_error h)⟩
  | ok =>
    rw [frameUpdate_of_opcode_ok h]
    have hopcode := afterWindow_frame .low [Config.OP_DTM] s
    cases hr : sendFrame (afterWindow .low [Config.OP_DTM] s) with
    | ok u => exact ⟨u, hopcode.trans (sendFrame_frame (.inl hr)), .inl rfl⟩
    | error u => exact ⟨u, hopcode.trans (sendFrame_frame (.inr hr)), .inr rfl⟩

theorem frameBody_rst (site : Site) (s : State) : (frameBody site s).rst = s.rst := by
  cases site with
  | init n =>
    rcases initSite_cases n with rfl | ⟨k, hk⟩ | rfl
    · exact transmit_rst (after := goToWait _ _) (fun _ => rfl) ..
    · rw [hk, frameBody_configSite, configEntry_eq]
      exact transmit_rst (after := afterConfig k) (fun _ => rfl) _ _ (loadEntry k s)
    · exact transmit_rst (after := goToWait _ _) (fun _ => rfl) ..
  | update =>
    obtain ⟨u, ⟨-, -, hrst, -⟩, heq | heq⟩ := frameUpdate_cases s <;> exact (congrArg State.rst heq).trans hrst
  | display => exact transmit_rst (after := goToRefreshWait) (fun _ => rfl) ..

theorem drawPixel_rst (x y : Int) (c : Color) (s : State) : (drawPixel x y c s).rst = s.rst := by
  unfold drawPixel drawLoaded
  split <;> rfl

/-- Of the host operations INIT alone moves RST, and leaves it high. -/
theorem exec_host_rst {w : HostWord} {i : Instr} {s t : State} (hd : decodeHost w = .ok i) (he : exec i s = .next t) :
    t.rst = s.rst ∨ t.rst = .high := by
  rcases (exec_host_next_cases hd he).2 with rfl | ⟨x, y, c, rfl⟩ | rfl | ⟨-, rfl⟩ | ⟨-, rfl⟩ | ⟨-, rfl⟩
  · exact .inl rfl
  · exact .inl (drawPixel_rst x y c (accept 1 s))
  · exact .inl rfl
  · exact .inr rfl
  · exact .inl rfl
  · exact .inl rfl

/-- Between steps RST moves only to high. -/
theorem step_rst {s t : State} (h : step s = .next t) : t.rst = s.rst ∨ t.rst = .high := by
  rcases step_next_cases h with ⟨-, -, rfl⟩ | ⟨w, -, rfl⟩ | ⟨site, -, rfl⟩ | ⟨w, rest, i, -, -, hd, he⟩
  · exact .inl rfl
  · exact .inl (pollBusy_rst w s)
  · exact .inl (frameBody_rst site s)
  · exact exec_host_rst (s := { s with requests := rest }) hd he

theorem step_keeps_rst_high {s t : State} (h : step s = .next t) (hs : s.rst = .high) : t.rst = .high :=
  (step_rst h).elim (·.trans hs) id

/-- From an idle block the script of INIT starts with the reset pulse, and the others start in `Ready`. -/
theorem exec_host_resetLineReleased {w : HostWord} {i : Instr} {s t : State} (hd : decodeHost w = .ok i)
    (he : exec i s = .next t) (h : s.phase = .ready → t.rst = .high) : ResetLineReleased t := by
  rcases exec_host_control_cases hd he with ⟨hseq, hphase⟩ | ⟨-, rfl⟩ | ⟨hready, -⟩
  · rintro (hrunning | hready)
    · exact absurd hseq hrunning
    · exact h (hphase.symm.trans hready)
  · exact fun _ => rfl
  · exact fun _ => h hready

/-- Settles O54: RST is high already while a script runs and in `Ready`, and no step but INIT's first moves it. -/
theorem stepKeepsResetLineReleased : Obligations.StepKeepsResetLineReleased := by
  unfold Obligations.StepKeepsResetLineReleased
  intro s t hstep
  refine ⟨step_keeps_rst_high hstep, fun h => ?_⟩
  have hkeep : s.seq ≠ .idle ∨ s.phase = .ready → t.rst = .high := fun hs => step_keeps_rst_high hstep (h hs)
  rcases step_next_cases hstep with ⟨-, -, rfl⟩ | ⟨w, hw, -⟩ | ⟨site, hsite, -⟩ | ⟨w, rest, i, -, -, hd, he⟩
  · exact h
  · exact fun _ => hkeep (.inl (by simp [hw]))
  · exact fun _ => hkeep (.inl (by simp [hsite]))
  · exact exec_host_resetLineReleased hd he (hkeep ∘ .inr)

end Sys2Proof.Machine
end

