-- ==== Sys2Proof/Proofs/InitSequencer.lean ====
section
/-! PROOF. The sequencer of INIT (rules R150 to R172): what each of its command frames leaves, a whole run with every
write answered `ok`, and the bytes any successful run has put on the wire. -/

namespace Sys2Proof.Machine

/-! ## The state after a command -/

/-- How many writes a command takes: an empty payload has none of its own (rule R137). -/
def commandWrites (payload : List Byte) : Nat := if payload = [] then 1 else 2

theorem sentCommand_frame (op : Byte) (payload : List Byte) (s : State) :
    PortFrame s (sentCommand op payload s) := by
  by_cases hp : payload = [] <;> simp [PortFrame, sentCommand, hp]

theorem sentCommand_spiIn (op : Byte) (payload : List Byte) (s : State) :
    (sentCommand op payload s).spiIn = s.spiIn.drop (commandWrites payload) := by
  by_cases hp : payload = []
  · simp [sentCommand, commandWrites, hp]
  · simp [sentCommand, commandWrites, hp, ← List.drop_one]

/-- The loop position plays no part in what a command leaves (rules R25, R26). -/
theorem sentCommand_loadEntry (op : Byte) (payload : List Byte) (k : Fin 14) (s : State) :
    sentCommand op payload (loadEntry k s) = loadEntry k (sentCommand op payload s) := by
  by_cases hp : payload = [] <;> simp [sentCommand, loadEntry, dropSpi_eq, hp]

theorem writesOk_loadEntry {payload : List Byte} {k : Fin 14} {s : State} :
    WritesOk payload (loadEntry k s) ↔ WritesOk payload s := by
  simp only [WritesOk, loadEntry, nextSpi_setWork, dropSpi_setWork]

/-- Queued answers `ok`, one for each write, are all a command needs. -/
theorem writesOk_of_spiIn {payload : List Byte} {s : State} {r : List SpiAnswer}
    (h : s.spiIn = List.replicate (commandWrites payload) .ok ++ r) : WritesOk payload s := by
  by_cases hp : payload = []
  · rw [commandWrites, if_pos hp] at h
    exact ⟨nextSpi_cons h, fun hne => absurd hp hne⟩
  · rw [commandWrites, if_neg hp] at h
    exact ⟨nextSpi_cons h, fun _ => nextSpi_cons (q := r) (by rw [dropSpi_spiIn, h]; rfl)⟩

theorem transmit_of_writesOk {op : Byte} {payload : List Byte} {after : State → State} {s : State}
    (h : WritesOk payload s) : transmit op payload after s = after (sentCommand op payload s) := by
  rw [transmit, sendCommand_of_writesOk op h, afterSend]

theorem atSite_transmit_of_writesOk {site : Site} {op : Byte} {payload : List Byte} {after : State → State} {s : State}
    (hs : s.seq = .frame site) (h : WritesOk payload s) :
    atSite site (transmit op payload after) s = .next (after (sentCommand op payload s)) := by
  rw [atSite_of_at hs, transmit_of_writesOk h]

theorem configEntry_of_writesOk {k : Fin 14} {after : State → State} {s : State}
    (h : WritesOk (Config.cfgPayload k) s) :
    configEntry k after s = after (sentCommand Config.CFG_OPS[k] (Config.cfgPayload k) (loadEntry k s)) := by
  rw [configEntry_eq, transmit_of_writesOk (writesOk_loadEntry.2 h)]

/-! ## INIT's commands, one by one -/

/-- Settles O34: with no payload the opcode's write is the only one. -/
theorem opcodeOnlyCommandsComplete : Obligations.OpcodeOnlyCommandsComplete := by
  unfold Obligations.OpcodeOnlyCommandsComplete
  intro s hok
  have hwrites : WritesOk [] s := ⟨hok, fun hne => absurd rfl hne⟩
  exact ⟨fun hs => atSite_transmit_of_writesOk hs hwrites, fun hs => atSite_transmit_of_writesOk hs hwrites,
    fun hs => atSite_transmit_of_writesOk hs hwrites⟩

/-- Settles O35: every table entry has the one meaning of the configuration loop. -/
theorem configCommandsComplete : Obligations.ConfigCommandsComplete := by
  unfold Obligations.ConfigCommandsComplete
  intro k s hs hwrites
  obtain ⟨-, hphase, -⟩ := sentCommand_frame Config.CFG_OPS[k] (Config.cfgPayload k) (loadEntry k s)
  rw [exec_configInstr, atSite_of_at hs, configEntry_of_writesOk hwrites, afterConfig, hphase, loadEntry_phase]

/-- TransferError at the payload's write leaves the opcode's window and the failed one behind (rules R212, R213). -/
theorem payloadFailure_faultedFrom {site : Site} {s : State} (hs : s.seq = .frame site) (op : Byte)
    (payload : List Byte) (n : Nat) :
    FaultedFrom site (windowEvents .low [op] ++ failedWindowEvents .high payload)
      ((.low, op) :: (payload.take n).map (fun b => (.high, b))) .high s
      (transferError (atFailedWindow .high payload n (afterWindow .low [op] s))) := by
  have hframe := (afterWindow_frame .low [op] s).trans (atFailedWindow_frame .high payload n _)
  obtain ⟨hseq, hphase⟩ := transferError_endedAt hs hframe
  obtain ⟨hplanes, -, hrst, -, -, hrequests, hbusy, -⟩ := hframe
  exact ⟨List.append_assoc .., List.append_assoc .., rfl, rfl, hrst, hplanes, rfl, hphase, hseq, hrequests, hbusy, rfl⟩

/-- Settles O38: a command with a payload fails at its second window, one without has no second write. -/
theorem payloadWriteFailureFaults : Obligations.PayloadWriteFailureFaults := by
  unfold Obligations.PayloadWriteFailureFaults
  intro k s n hs hopcode hpayload
  rw [exec_configInstr, atSite_of_at hs]
  refine ⟨_, rfl, ?_⟩
  by_cases hp : Config.cfgPayload k = []
  · rw [if_pos hp, configEntry_of_writesOk ⟨hopcode, fun hne => absurd hp hne⟩, hp]
    exact ⟨rfl, rfl⟩
  · have herr : nextSpi (dropSpi (loadEntry k s)) = .error n := by rw [loadEntry, dropSpi_setWork]; exact hpayload
    rw [if_neg hp, configEntry_eq, transmit,
      sendCommand_of_payload_error (s := loadEntry k s) Config.CFG_OPS[k] hp hopcode herr, afterSend]
    exact payloadFailure_faultedFrom (s := loadEntry k s) hs Config.CFG_OPS[k] (Config.cfgPayload k) n

/-! ## The table's writes and events (rule R152) -/

/-- The writes of the commands of some table entries. -/
def entriesWrites (ks : List (Fin 14)) : Nat := (ks.map fun k => commandWrites (Config.cfgPayload k)).sum

/-- The events of the commands of some table entries. -/
def entriesEvents (ks : List (Fin 14)) : List Event :=
  ks.flatMap fun k => commandEvents Config.CFG_OPS[k] (Config.cfgPayload k)

theorem entriesWrites_append (ks ls : List (Fin 14)) :
    entriesWrites (ks ++ ls) = entriesWrites ks + entriesWrites ls := by simp [entriesWrites]

theorem entriesEvents_append (ks ls : List (Fin 14)) :
    entriesEvents (ks ++ ls) = entriesEvents ks ++ entriesEvents ls := by simp [entriesEvents]

theorem commandEvents_length (op : Byte) (payload : List Byte) :
    (commandEvents op payload).length = 4 * commandWrites payload := by
  by_cases hp : payload = [] <;> simp [commandEvents, windowEvents, commandWrites, hp]

theorem entriesEvents_length (ks : List (Fin 14)) : (entriesEvents ks).length = 4 * entriesWrites ks := by
  simp only [entriesEvents, List.length_flatMap, commandEvents_length, entriesWrites, List.sum_map_mul_left]

theorem configLength_eq (k : Fin 14) : configLength k = 4 * commandWrites (Config.cfgPayload k) := by
  by_cases hp : Config.cfgPayload k = [] <;> simp [configLength, commandWrites, hp]

theorem configsLength_eq (n : Nat) : configsLength n = 4 * entriesWrites ((List.finRange 14).take n) := by
  simp only [configsLength, funext configLength_eq, entriesWrites, List.sum_map_mul_left]

theorem entriesWrites_eq (ks : List (Fin 14)) :
    entriesWrites ks = ks.length + (ks.filter fun k => Config.cfgPayload k ≠ []).length := by
  induction ks with
  | nil => rfl
  | cons k ks ih =>
    rw [entriesWrites, List.map_cons, List.sum_cons, ← entriesWrites, ih]
    by_cases hp : Config.cfgPayload k = [] <;> simp [commandWrites, hp] <;> omega

theorem tableWrites : entriesWrites (List.finRange 14) = 14 + payloadCount := by
  rw [entriesWrites_eq, List.length_finRange, payloadCount]

theorem payloadCount_le : payloadCount ≤ 14 := by
  simpa [payloadCount] using List.length_filter_le (fun k : Fin 14 => Config.cfgPayload k ≠ []) (List.finRange 14)

theorem payloadCount_eq_iff : payloadCount = 14 ↔ ∀ k, Config.cfgPayload k ≠ [] := by
  have h := List.length_filter_eq_length_iff (p := fun k : Fin 14 => Config.cfgPayload k ≠ []) (l := List.finRange 14)
  simpa [payloadCount] using h

/-! ## Stretches of INIT's script -/

/-- From `s` the script comes to `t` in `n` steps that cause `events` and leave `busy` and `spi` of the environment's
answers; the planes, RST and the host's list are untouched. -/
structure Arrives (n : Nat) (s t : State) (events : List Event) (busy : List Level) (spi : List SpiAnswer) : Prop where
  run : runFor n s = .next t
  trace : t.trace = s.trace ++ events
  busyIn : t.busyIn = busy
  spiIn : t.spiIn = spi
  planes : t.planes = s.planes
  rst : t.rst = s.rst
  requests : t.requests = s.requests

theorem Arrives.refl (s : State) : Arrives 0 s s [] s.busyIn s.spiIn :=
  ⟨rfl, (List.append_nil _).symm, rfl, rfl, rfl, rfl, rfl⟩

theorem Arrives.trans {m n : Nat} {s t u : State} {es fs : List Event} {busy busy' : List Level}
    {spi spi' : List SpiAnswer} (h : Arrives m s t es busy spi) (k : Arrives n t u fs busy' spi') :
    Arrives (m + n) s u (es ++ fs) busy' spi' where
  run := by rw [runFor_add m n h.run, k.run]
  trace := by rw [k.trace, h.trace, List.append_assoc]
  busyIn := k.busyIn
  spiIn := k.spiIn
  planes := k.planes.trans h.planes
  rst := k.rst.trans h.rst
  requests := k.requests.trans h.requests

/-- The state at the exit of a busy-wait that sampled `low` `n` times and left the answers `q` (rule R139). -/
def waited (n : Nat) (q : List Level) (s : State) : State :=
  { s with trace := s.trace ++ waitEvents n, busyIn := q, work := { s.work with upc := s.work.upc + 1 } }

theorem wait_arrives {w : WaitPoint} {s : State} {n : Nat} {q : List Level} (hs : s.seq = .wait w)
    (hq : s.busyIn = waitAnswers n ++ q) :
    Arrives (n + 1) s (afterWait w (waited n q s)) (waitEvents n) q s.spiIn := by
  refine ⟨(busyWaitEndsAtFirstHigh w s n q hs).2 hq, ?_, ?_, ?_, ?_, ?_, ?_⟩ <;> cases w <;> rfl

/-- One frame of the script is sent. -/
theorem frame_arrives {site : Site} {op : Byte} {payload : List Byte} {after : State → State} {s : State}
    {r : List SpiAnswer} (hs : s.seq = .frame site) (hq : s.spiIn = List.replicate (commandWrites payload) .ok ++ r)
    (hbody : WritesOk payload s → frameBody site s = after (sentCommand op payload s))
    (hafter : ∀ u, (after u).trace = u.trace ∧ (after u).busyIn = u.busyIn ∧ (after u).spiIn = u.spiIn ∧
      (after u).planes = u.planes ∧ (after u).rst = u.rst ∧ (after u).requests = u.requests) :
    Arrives 1 s (after (sentCommand op payload s)) (commandEvents op payload) s.busyIn r := by
  obtain ⟨atrace, abusy, aspi, aplanes, arst, arequests⟩ := hafter (sentCommand op payload s)
  obtain ⟨hplanes, -, hrst, -, -, hrequests, hbusy, -⟩ := sentCommand_frame op payload s
  refine ⟨?_, atrace, abusy.trans hbusy, ?_, aplanes.trans hplanes, arst.trans hrst, arequests.trans hrequests⟩
  · rw [runFor_one, step_of_frame_body hs, hbody (writesOk_of_spiIn hq)]
  · rw [aspi, sentCommand_spiIn, hq, List.drop_left' (by simp)]

theorem swReset_arrives {s : State} {r : List SpiAnswer} (hs : s.seq = .frame (.init 0)) (hq : s.spiIn = .ok :: r) :
    Arrives 1 s (goToWait .softwareResetSent .afterSwReset (sentCommand 0x01 [] s)) (commandEvents 0x01 []) s.busyIn
      r :=
  frame_arrives hs hq transmit_of_writesOk fun _ => ⟨rfl, rfl, rfl, rfl, rfl, rfl⟩

theorem powerOn_arrives {s : State} {r : List SpiAnswer} (hs : s.seq = .frame (.init 15)) (hq : s.spiIn = .ok :: r) :
    Arrives 1 s (goToWait .poweredOn .afterPowerOn (sentCommand 0x04 [] s)) (commandEvents 0x04 []) s.busyIn r :=
  frame_arrives hs hq transmit_of_writesOk fun _ => ⟨rfl, rfl, rfl, rfl, rfl, rfl⟩

theorem config_arrives {k : Fin 14} {s : State} {r : List SpiAnswer} (hs : s.seq = .frame (configSite k))
    (hq : s.spiIn = List.replicate (commandWrites (Config.cfgPayload k)) .ok ++ r) :
    ∃ t, t.seq = .frame (afterConfigSite k) ∧
      Arrives 1 s t (commandEvents Config.CFG_OPS[k] (Config.cfgPayload k)) s.busyIn r := by
  refine ⟨_, rfl, frame_arrives (after := fun u => afterConfig k (loadEntry k u)) hs hq (fun hwrites => ?_)
    fun _ => ⟨rfl, rfl, rfl, rfl, rfl, rfl⟩⟩
  rw [frameBody_configSite, configEntry_of_writesOk hwrites, sentCommand_loadEntry]

/-- The configuration loop over its first `n` entries (rule R150). -/
theorem configs_arrive {n : Nat} (hn : n ≤ 14) {s : State} {r : List SpiAnswer} (hs : s.seq = .frame (.init 1))
    (hq : s.spiIn = List.replicate (entriesWrites ((List.finRange 14).take n)) .ok ++ r) :
    ∃ t, t.seq = .frame (.init ⟨n + 1, by omega⟩) ∧
      Arrives n s t (entriesEvents ((List.finRange 14).take n)) s.busyIn r := by
  induction n generalizing r with
  | zero =>
    obtain rfl : s.spiIn = r := hq
    exact ⟨s, hs, .refl s⟩
  | succ n ih =>
    have htake : (List.finRange 14).take (n + 1) = (List.finRange 14).take n ++ [⟨n, hn⟩] := by
      rw [List.take_succ_eq_append_getElem (by simpa using hn)]; simp
    have hlast : entriesWrites [⟨n, hn⟩] = commandWrites (Config.cfgPayload ⟨n, hn⟩) := by simp [entriesWrites]
    rw [htake, entriesWrites_append, hlast, List.replicate_add, List.append_assoc] at hq
    obtain ⟨t, htseq, ht⟩ := ih (by omega) hq
    obtain ⟨u, huseq, hu⟩ := config_arrives (k := ⟨n, hn⟩) htseq ht.spiIn
    refine ⟨u, huseq, ?_⟩
    rw [htake, entriesEvents_append, ← ht.busyIn]
    simpa [entriesEvents] using ht.trans hu

/-- The events of INIT's script from its first busy-wait to its last (rule R150). -/
def scriptEvents (a b : Nat) : List Event :=
  waitEvents a ++ commandEvents 0x01 [] ++ waitEvents b ++ configEvents ++ commandEvents 0x04 []

theorem initEvents_eq (a b c : Nat) : initEvents a b c = pulseEvents ++ (scriptEvents a b ++ waitEvents c) := by
  simp only [initEvents, scriptEvents, List.append_assoc]

theorem init_arrives_powerOnWait {s : State} {a b : Nat} {q : List Level} {r : List SpiAnswer}
    (hs : s.seq = .wait .afterReset) (hbusy : s.busyIn = waitAnswers a ++ (waitAnswers b ++ q))
    (hspi : s.spiIn = List.replicate (16 + payloadCount) .ok ++ r) :
    ∃ v, v.seq = .wait .afterPowerOn ∧ v.cs = .high ∧ v.dc = .low ∧
      Arrives (18 + a + b) s v (scriptEvents a b) q r := by
  have hanswers : s.spiIn = .ok :: (List.replicate (14 + payloadCount) .ok ++ (.ok :: r)) := by
    rw [hspi, show 16 + payloadCount = 1 + ((14 + payloadCount) + 1) by omega, List.replicate_add, List.replicate_add,
      List.append_assoc, List.append_assoc]
    rfl
  have h₁ := wait_arrives hs hbusy
  have h₂ := swReset_arrives rfl (h₁.spiIn.trans hanswers)
  have h₃ := wait_arrives rfl (h₂.busyIn.trans h₁.busyIn)
  have htable := h₃.spiIn.trans h₂.spiIn
  rw [← tableWrites] at htable
  obtain ⟨s₄, hs₄, h₄⟩ := configs_arrive le_rfl rfl htable
  have h₅ := powerOn_arrives hs₄ h₄.spiIn
  have hrun := (((h₁.trans h₂).trans h₃).trans h₄).trans h₅
  rw [h₄.busyIn, h₃.busyIn] at hrun
  refine ⟨goToWait .poweredOn .afterPowerOn (sentCommand 0x04 [] s₄), rfl, rfl, rfl, ?_⟩
  rw [show 18 + a + b = a + 1 + 1 + (b + 1) + 14 + 1 by omega]
  exact hrun

/-- INIT from an idle block to `Ready`: its first step, its script to the last busy-wait at `v`, and that wait. -/
theorem init_runs {s : State} {a b c : Nat} {q : List Level} {r : List SpiAnswer} (hidle : s.seq = .idle)
    (hphase : s.phase = .uninitialized)
    (hbusy : s.busyIn = waitAnswers a ++ waitAnswers b ++ waitAnswers c ++ q)
    (hspi : s.spiIn = List.replicate 30 .ok ++ r) :
    exec .init s = .next (beginInit (accept 3 s)) ∧
    ∃ v, v.seq = .wait .afterPowerOn ∧ v.cs = .high ∧ v.dc = .low ∧
      runFor (18 + a + b) (beginInit (accept 3 s)) = .next v ∧
      v.trace ++ waitEvents c = s.trace ++ initEvents a b c ∧
      Arrives (19 + a + b + c) (beginInit (accept 3 s)) (afterWait .afterPowerOn (waited c q v))
        (scriptEvents a b ++ waitEvents c) q (List.replicate (14 - payloadCount) .ok ++ r) := by
  refine ⟨admitWhen_of_admitted hidle (decide_eq_true hphase), ?_⟩
  have hbusy' : (beginInit (accept 3 s)).busyIn = waitAnswers a ++ (waitAnswers b ++ (waitAnswers c ++ q)) := by
    rw [← List.append_assoc, ← List.append_assoc]; exact hbusy
  have hspi' : (beginInit (accept 3 s)).spiIn =
      List.replicate (16 + payloadCount) .ok ++ (List.replicate (14 - payloadCount) .ok ++ r) := by
    have hle := payloadCount_le
    rw [← List.append_assoc, ← List.replicate_add, show 16 + payloadCount + (14 - payloadCount) = 30 by omega]
    exact hspi
  obtain ⟨v, hv, hcs, hdc, hrun⟩ := init_arrives_powerOnWait rfl hbusy' hspi'
  have hlast := hrun.trans (wait_arrives hv hrun.busyIn)
  have hsteps : 18 + a + b + (c + 1) = 19 + a + b + c := by omega
  rw [hrun.spiIn, hsteps] at hlast
  refine ⟨v, hv, hcs, hdc, hrun.run, ?_, hlast⟩
  rw [hrun.trace, beginInit_trace, initEvents_eq, List.append_assoc, List.append_assoc]
  rfl

/-- Settles O43: the run's stretches joined, read at the exit of the last busy-wait. -/
theorem initRunsToReady : Obligations.InitRunsToReady := by
  unfold Obligations.InitRunsToReady
  intro s a b c q r hidle hphase hbusy hspi
  obtain ⟨hexec, v, -, hcs, hdc, -, htrace, hrun⟩ := init_runs hidle hphase hbusy hspi
  exact ⟨_, _, hexec, hrun.run, rfl, rfl, rfl, htrace, hcs, hdc, hrun.rst, hrun.planes,
    hrun.requests, hrun.busyIn, hrun.spiIn, rfl⟩

/-! ## The length of INIT's script (rule R152) -/

theorem waitEvents_length (n : Nat) : (waitEvents n).length = 2 * n + 1 := by
  simp [waitEvents, lowTurns, Nat.mul_comm]

theorem initEvents_length (a b c : Nat) :
    (initEvents a b c).length = (68 + 4 * payloadCount) + (2 * a + 1) + (2 * b + 1) + (2 * c + 1) := by
  have hconfig : configEvents.length = 4 * (14 + payloadCount) := by
    rw [← tableWrites]; exact entriesEvents_length _
  simp only [initEvents, List.length_append, waitEvents_length, commandEvents_length, hconfig, commandWrites,
    pulseEvents, List.length_cons, List.length_nil, if_pos]
  omega

/-- The last busy-wait's script index fits the 8 bits of `upc`. -/
theorem waitIndex_afterPowerOn_eq : waitIndex .afterPowerOn = 70 + 4 * payloadCount := by
  have htable : configsLength 14 = 4 * (14 + payloadCount) := by rw [← tableWrites]; exact configsLength_eq 14
  simp only [waitIndex, htable]
  omega

/-- Settles O46: `upc` at the last busy-wait is the index of that position, by the agreement every step keeps. -/
theorem initScriptLength : Obligations.InitScriptLength := by
  unfold Obligations.InitScriptLength
  refine ⟨payloadCount_le, payloadCount_eq_iff, fun s a b c q r hidle hphase hbusy hspi => ?_⟩
  obtain ⟨hexec, v, hv, -, -, hrunv, htrace, hrun⟩ := init_runs hidle hphase hbusy hspi
  refine ⟨_, v, _, hexec, hrunv, hv, ?_, hrun.run, rfl, rfl, ?_⟩
  · have hagrees : ControlAgrees v := runFor_keeps stepKeepsControlAgrees (beginInit_controlAgrees s) hrunv
    obtain ⟨-, -, hupc⟩ := (controlAgrees_wait hv).1 hagrees
    have hle := payloadCount_le
    rw [hupc, waitIndex_afterPowerOn_eq, BitVec.toNat_ofNat, Nat.mod_eq_of_lt (by omega)]
  · have htotal : (v.trace ++ waitEvents c).length = s.trace.length + (initEvents a b c).length := by
      rw [htrace, List.length_append]
    rw [initEvents_length] at htotal
    exact htotal.trans (by omega)

/-! ## The bytes of a successful INIT (rule R170) -/

/-- The bytes on the wire of INIT's first `m` commands. -/
def initWire (m : Nat) : List (Level × Byte) :=
  ((List.finRange 16).take m).flatMap fun n => commandWire initOpcodes[n] (initPayload n)

theorem initWire_succ (n : Fin 16) : initWire (n + 1) = initWire n ++ commandWire initOpcodes[n] (initPayload n) := by
  rw [initWire, List.take_succ_eq_append_getElem (by simp)]
  simp [initWire]

theorem bytesAt_append (dc : Level) (xs ys : List (Level × Byte)) :
    bytesAt dc (xs ++ ys) = bytesAt dc xs ++ bytesAt dc ys := by simp [bytesAt]

theorem bytesAt_flatMap {α : Type} (dc : Level) (f : α → List (Level × Byte)) (l : List α) :
    bytesAt dc (l.flatMap f) = l.flatMap fun x => bytesAt dc (f x) := by
  induction l with
  | nil => rfl
  | cons x l ih => rw [List.flatMap_cons, bytesAt_append, ih, List.flatMap_cons]

/-- A listener takes the opcode alone as an opcode (rule R85). -/
theorem bytesAt_low_commandWire (op : Byte) (payload : List Byte) : bytesAt .low (commandWire op payload) = [op] := by
  simp [bytesAt, commandWire, List.filter_map]

theorem bytesAt_high_commandWire (op : Byte) (payload : List Byte) :
    bytesAt .high (commandWire op payload) = payload := by
  simp [bytesAt, commandWire, List.filter_map]

theorem bytesAt_low_initWire : bytesAt .low (initWire 16) = initOpcodes.toList := by
  simp only [initWire, bytesAt_flatMap, bytesAt_low_commandWire]
  decide

/-- The payloads of INIT's commands are those of the table: the commands around them have none. -/
theorem bytesAt_high_initWire : bytesAt .high (initWire 16) = (List.finRange 14).flatMap Config.cfgPayload := by
  simp only [initWire, bytesAt_flatMap, bytesAt_high_commandWire]
  rfl

/-- What a step of a run of INIT can do: abort it, send nothing, or send the command at its position. -/
theorem step_init_cases {t u : State} {m : Nat} (hreq : t.requests = []) (hpos : InitPosition t.seq m)
    (hstep : step t = .next u) :
    u.requests = [] ∧
      (InitAborted u ∨ (InitPosition u.seq m ∧ u.wire = t.wire) ∨ ∃ n : Fin 16, m = n ∧ InitCommandSent n t u) := by
  rcases step_next_cases hstep with ⟨-, -, rfl⟩ | ⟨w, hw, rfl⟩ | ⟨site, hsite, rfl⟩ | ⟨w, rest, -, -, hcons, -⟩
  · exact ⟨hreq, .inr (.inl ⟨hpos, rfl⟩)⟩
  · rw [hw] at hpos
    obtain ⟨preq, ppos, -⟩ := pollBusy_init hw hpos
    exact ⟨preq.trans hreq, .inr (.inl ⟨ppos, (pollBusy_writesNothing w t).1⟩)⟩
  · rw [hsite] at hpos
    cases hpos with
    | frame n =>
      obtain ⟨freq, haborted | hsent⟩ := frameBody_init_cases hsite
      · exact ⟨freq.trans hreq, .inl haborted⟩
      · exact ⟨freq.trans hreq, .inr (.inr ⟨n, rfl, hsent⟩)⟩
  · simp [hreq] at hcons

/-- A run of INIT that began in `s` has come to `t`: it was aborted, or the wire holds the commands before its
position. -/
def InitWireRun (s t : State) : Prop :=
  t.requests = [] ∧ (InitAborted t ∨ ∃ m, InitPosition t.seq m ∧ t.wire = s.wire ++ initWire m)

theorem initWireRun_begin {s t : State} (hreq : s.requests = []) (h : exec .init s = .next t) : InitWireRun s t := by
  obtain ⟨-, -, rfl⟩ := admitWhen_next_iff.1 h
  exact ⟨hreq, .inr ⟨0, .resetWait, (List.append_nil _).symm⟩⟩

theorem step_keeps_initWireRun {s t u : State} (h : InitWireRun s t) (hstep : step t = .next u) : InitWireRun s u := by
  obtain ⟨hreq, ⟨hidle, hphase⟩ | ⟨m, hpos, hwire⟩⟩ := h
  · obtain rfl : t = u := Host.Outcome.next.inj ((step_of_idle_none hidle hreq).symm.trans hstep)
    exact ⟨hreq, .inl ⟨hidle, hphase⟩⟩
  · obtain ⟨ureq, haborted | ⟨upos, uwire⟩ | ⟨n, rfl, upos, -, uwire⟩⟩ := step_init_cases hreq hpos hstep
    · exact ⟨ureq, .inl haborted⟩
    · exact ⟨ureq, .inr ⟨m, upos, uwire.trans hwire⟩⟩
    · exact ⟨ureq, .inr ⟨n + 1, upos, by rw [uwire, hwire, initWire_succ, List.append_assoc]⟩⟩

/-- Settles O44: an idle block in `Ready` is not what an aborted INIT leaves, so the wire holds all sixteen commands. -/
theorem successfulInitSendsTheTable : Obligations.SuccessfulInitSendsTheTable := by
  unfold Obligations.SuccessfulInitSendsTheTable
  intro s t u n hreq hinit hrun hidle hready
  obtain ⟨-, ⟨-, haborted⟩ | ⟨m, hpos, hwire⟩⟩ :=
    runFor_keeps (fun _ _ => step_keeps_initWireRun) (initWireRun_begin hreq hinit) hrun
  · rw [hready] at haborted; cases haborted
  · rw [hidle] at hpos
    cases hpos
    exact ⟨_, hwire, bytesAt_low_initWire, bytesAt_high_initWire⟩

end Sys2Proof.Machine
end

