-- ==== Sys2Proof/Proofs/FrameUpdate.lean ====
section
/-! PROOF. The frame update (rules R180 to R193): the code of a pixel, the contents of the frame, and the command that
sends it. -/

namespace Sys2Proof.Machine

/-! ## The pixel encoder -/

/-- Settles O25: `PlaneAddr` fixes the position, and the priority of rule R181 is a table of its three bits. -/
theorem pixelCodePriority : Obligations.PixelCodePriority := by
  unfold Obligations.PixelCodePriority
  intro pl px idx bit hidx hbit
  obtain rfl : planeIdx px = idx := Fin.ext hidx.symm
  obtain rfl : planeBit px = bit := Fin.ext hbit.symm
  simp only [pixelCode, codeAt, bitsAt]
  generalize planeBitAt pl .bw (planeIdx px) (planeBit px) = bw
  generalize planeBitAt pl .red (planeIdx px) (planeBit px) = red
  generalize planeBitAt pl .yellow (planeIdx px) (planeBit px) = yellow
  revert bw red yellow
  decide

theorem pixelCode_eq_of_sharesBit (pl : Planes) {p q : Pixel} (h : SharesBit p q) :
    pixelCode pl p = pixelCode pl q := by
  obtain ⟨hidx, hbit⟩ := h
  rw [pixelCode, hidx, hbit, ← pixelCode]

/-- In a clear buffer every pixel is White. -/
theorem pixelCode_clearPlanes (px : Pixel) : pixelCode clearPlanes px = Config.CODE_WHITE :=
  codeAt_of_colorBits (c := .white) (bitsAt_clearPlanes ..)

/-! ## The slots and bytes of the frame -/

/-- Settles O26. -/
theorem transposerLoopsGiveTheFrame : Obligations.TransposerLoopsGiveTheFrame := by
  unfold Obligations.TransposerLoopsGiveTheFrame
  exact transpose_bytes

/-- A slot of a column up to 121 holds the code of its pixel. -/
theorem frameSlot_of_column {n i : Nat} (hn : n < 8000) (hi : i < 4) (hcol : 4 * (n % 32) + i ≤ 121) :
    ∃ px : Pixel, wireByte px = n ∧ ∀ pl, frameSlot pl n i = pixelCode pl px := by
  obtain ⟨px, ⟨hbyte, hslot⟩, -⟩ := (eachValidSlotHasOnePixel n i hn hi).1 hcol
  exact ⟨px, hbyte, fun pl => by rw [← hbyte, ← hslot, frameSlot_pixel]⟩

/-- Planes that agree on the pixels of a frame byte have the same byte there. -/
theorem frameByte_congr {a b : Planes} {n : Nat} (hn : n < 8000)
    (h : ∀ px, wireByte px = n → pixelCode a px = pixelCode b px) : frameByte a n = frameByte b n := by
  have hslot : ∀ i < 4, frameSlot a n i = frameSlot b n i := by
    intro i hi
    by_cases hcol : 4 * (n % 32) + i ≤ 121
    · obtain ⟨px, hbyte, hcode⟩ := frameSlot_of_column hn hi hcol
      rw [hcode, hcode, h px hbyte]
    · rw [frameSlot_pad a (by omega), frameSlot_pad b (by omega)]
  simp only [frameByte, hslot, Nat.reduceLT]

/-- Settles O32: each slot holds its pixel's code, which the shared position fixes. -/
theorem sharingPixelsLookAlikeOnTheWire : Obligations.SharingPixelsLookAlikeOnTheWire := by
  unfold Obligations.SharingPixelsLookAlikeOnTheWire
  intro pl w p q hshare
  rw [slotCode_transpose pl w (wireByte_lt p) (wireSlot_lt p), slotCode_transpose pl w (wireByte_lt q) (wireSlot_lt q),
    frameSlot_pixel, frameSlot_pixel, pixelCode_eq_of_sharesBit pl hshare]

/-! ## Padding (rule R192) -/

/-- Slots 2 and 3 stand in the low half of a byte. -/
theorem extractLsb'_pack (a b c d : BitVec 2) : (a ++ b ++ c ++ d).extractLsb' 0 4 = c ++ d := by
  revert a b c d; decide

/-- Byte 30 of a driver row holds columns 120 to 123. -/
theorem frameByte_thirty (pl : Planes) {n : Nat} (hn : n % 32 = 30) :
    frameByte pl n = frameSlot pl n 0 ++ frameSlot pl n 1 ++ Config.PAD_CODE ++ Config.PAD_CODE := by
  rw [frameByte, frameSlot_pad pl (i := 2) (by omega), frameSlot_pad pl (i := 3) (by omega)]

/-- Byte 31 of a driver row holds columns 124 to 127. -/
theorem frameByte_thirtyOne (pl : Planes) {n : Nat} (hn : n % 32 = 31) : frameByte pl n = 0xAA := by
  have hpad (i : Nat) : frameSlot pl n i = Config.PAD_CODE := frameSlot_pad pl (by omega)
  simp only [frameByte, hpad]
  decide

/-- Settles O30: the columns from 122 on are the last six of a row. -/
theorem paddingIsYellow : Obligations.PaddingIsYellow := by
  unfold Obligations.PaddingIsYellow
  intro pl w ly hly
  rw [transpose_getD pl w (by omega), transpose_getD pl w (by omega), frameByte_thirty pl (by omega), extractLsb'_pack]
  exact ⟨by decide, frameByte_thirtyOne pl (by omega)⟩

/-! ## The frame of a clear buffer (rule R191) -/

theorem frameSlot_clearPlanes {n i : Nat} (hn : n < 8000) (hi : i < 4) (hcol : 4 * (n % 32) + i ≤ 121) :
    frameSlot clearPlanes n i = Config.CODE_WHITE := by
  obtain ⟨px, -, hcode⟩ := frameSlot_of_column hn hi hcol
  rw [hcode, pixelCode_clearPlanes]

/-- Byte `g` of a driver row of a clear buffer: White, but for the padding. -/
def clearByte (g : Nat) : Byte := if g < 30 then 0x55 else if g = 30 then 0x5A else 0xAA

theorem frameByte_clearPlanes {n : Nat} (hn : n < 8000) : frameByte clearPlanes n = clearByte (n % 32) := by
  have hwhite {i : Nat} (hi : i < 4) (hcol : 4 * (n % 32) + i ≤ 121) := frameSlot_clearPlanes hn hi hcol
  obtain hg | hg | hg : n % 32 < 30 ∨ n % 32 = 30 ∨ n % 32 = 31 := by omega
  · rw [frameByte, hwhite (i := 0) (by omega) (by omega), hwhite (i := 1) (by omega) (by omega),
      hwhite (i := 2) (by omega) (by omega), hwhite (i := 3) (by omega) (by omega), clearByte, if_pos hg]
    decide
  · rw [frameByte_thirty _ hg, hwhite (i := 0) (by omega) (by omega), hwhite (i := 1) (by omega) (by omega), hg]
    decide
  · rw [frameByte_thirtyOne _ hg, hg]
    decide

/-- A driver row of a clear buffer. -/
def clearRow : List Byte := List.replicate 30 0x55 ++ [0x5A, 0xAA]

theorem rowBytes_clearPlanes {ly : Nat} (hly : ly < 250) : rowBytes clearPlanes ly = clearRow := by
  have hbyte : ∀ g ∈ List.range 32, frameByte clearPlanes (32 * ly + g) = clearByte g := by
    intro g hg
    rw [List.mem_range] at hg
    rw [frameByte_clearPlanes (by omega), Nat.mul_add_mod, Nat.mod_eq_of_lt hg]
  rw [rowBytes, List.map_congr_left hbyte]
  decide

theorem transpose_clearPlanes (w : WorkRegs) :
    (transpose clearPlanes w).2 = (List.range 250).flatMap fun _ => clearRow := by
  rw [transpose_bytes, frameBytes, ← flatMap_rowBytes clearPlanes 250]
  exact List.flatMap_congr fun ly hly => rowBytes_clearPlanes (List.mem_range.1 hly)

/-- Settles O29: 250 rows of the same 32 bytes. -/
theorem clearBufferFrame : Obligations.ClearBufferFrame := by
  unfold Obligations.ClearBufferFrame
  intro w
  have hcount (v : Byte) : (transpose clearPlanes w).2.count v = 250 * clearRow.count v := by
    rw [transpose_clearPlanes, List.count_flatMap, Function.comp_def, List.map_const', List.sum_replicate,
      List.length_range, smul_eq_mul]
  exact ⟨transpose_clearPlanes w, by rw [hcount]; decide, by rw [hcount]; decide, by rw [hcount]; decide⟩

/-! ## A single Black pixel (rule R190) -/

/-- A draw changes no frame byte but those of the pixels that share its position. -/
theorem frameByte_drawPlanes {pl : Planes} (h : pl.wf) {p : Pixel} {n : Nat} (hn : n < 8000)
    (hp : ∀ q, SharesBit p q → wireByte q ≠ n) (c : Color) :
    frameByte (drawPlanes (planeIdx p) (planeBit p) c.code pl) n = frameByte pl n :=
  frameByte_congr hn fun q hq => (pixelCode_drawPlanes h p q c).2 fun hshare => hp q hshare hq

/-- A pixel outside the first two and the last two columns shares its position with no other (rule R57). -/
theorem eq_of_sharesBit_of_inner {p q : Pixel} (hlow : 2 ≤ p.x.val) (hhigh : p.x.val < 248)
    (h : SharesBit p q) : p = q := by
  by_contra hne
  obtain ⟨y, -, -, hpair⟩ := (pixelsThatShareABit p q hne).1 h
  omega

/-- Settles O31: the pixel shares its position with no other, and byte 187 is its frame byte. -/
theorem singleBlackPixelFrame : Obligations.SingleBlackPixelFrame := by
  unfold Obligations.SingleBlackPixelFrame
  intro s hidle hclear
  obtain ⟨t, hexec, ht⟩ := exec_drawPixel_coords_done hidle ⟨5, 10⟩ .black
  refine ⟨t, hexec, fun w => ?_⟩
  rw [ht.planes, hclear, transpose_bytes, transpose_bytes]
  refine List.ext_getElem (by simp [frameBytes]) fun n hn _ => ?_
  have hn : n < 8000 := by simpa [frameBytes] using hn
  rw [List.getElem_set]
  simp only [frameBytes, List.getElem_map, List.getElem_range]
  split
  case isTrue heq =>
    subst heq
    decide
  case isFalse hne =>
    refine frameByte_drawPlanes clearPlanes_wf hn (fun q hshare => ?_) .black
    rw [← eq_of_sharesBit_of_inner (by decide) (by decide) hshare]
    exact hne

/-! ## The frame command (rules R180, R186, R187) -/

theorem frameBytes_ne_nil (pl : Planes) : frameBytes pl ≠ [] := by simp [frameBytes]

/-- What follows a CS window ends the operation, so the working registers play no part in what is left. -/
theorem afterSend_complete_csWindow_setWork (dc : Level) (bytes : List Byte) (s : State) (w : WorkRegs) :
    afterSend complete (csWindow dc bytes { s with work := w }) = afterSend complete (csWindow dc bytes s) := by
  rcases csWindow_cases dc bytes s with ⟨hok, hr⟩ | ⟨n, herror, hr⟩
  · rw [hr, csWindow_of_ok (s := { s with work := w }) dc bytes hok]
    simp only [afterSend, afterWindow, dropSpi_setWork]
    rfl
  · rw [hr, csWindow_of_error (s := { s with work := w }) dc bytes herror]
    simp only [afterSend, atFailedWindow, dropSpi_setWork]
    rfl

/-- The data half of W_DTM is the data phase of the closed-form frame (rule R185). -/
theorem afterSend_complete_sendFrame (s : State) :
    afterSend complete (sendFrame s) = afterSend complete (dataPhase (frameBytes s.planes) s) := by
  rw [sendFrame]
  simp only [transpose_bytes, dataPhase]
  exact afterSend_complete_csWindow_setWork ..

/-- W_DTM is a command like the others, with the frame as its payload. -/
theorem frameUpdate_eq_transmit (s : State) :
    frameUpdate s = transmit Config.OP_DTM (frameBytes s.planes) complete s := by
  cases h : nextSpi s with
  | error n => rw [frameUpdate_of_opcode_error h, transmit, sendCommand_of_opcode_error _ _ h, afterSend]
  | ok =>
    obtain ⟨hplanes, -⟩ := afterWindow_frame .low [Config.OP_DTM] s
    rw [frameUpdate_of_opcode_ok h, afterSend_complete_sendFrame, hplanes, transmit, sendCommand, opcodePhase,
      csWindow_of_ok _ _ h]
    simp only [if_neg (frameBytes_ne_nil _)]

theorem exec_wDtm {s : State} (hs : s.seq = .frame .update) :
    exec .wDtm s = .next (transmit Config.OP_DTM (frameBytes s.planes) complete s) := by
  rw [← frameUpdate_eq_transmit]
  exact atSite_of_at hs

/-- Settles O36: both windows of the command are sent, and the operation ends. -/
theorem frameCommandCompletes : Obligations.FrameCommandCompletes := by
  unfold Obligations.FrameCommandCompletes
  intro s hs hopcode hdata
  have hne := frameBytes_ne_nil s.planes
  rw [exec_wDtm hs, transmit_of_writesOk ⟨hopcode, fun _ => hdata⟩]
  generalize frameBytes s.planes = bytes at hne ⊢
  obtain ⟨hplanes, hphase, hrst, -, -, hrequests, hbusy, -⟩ := sentCommand_frame Config.OP_DTM bytes s
  have hspi := sentCommand_spiIn Config.OP_DTM bytes s
  rw [commandWrites, if_neg hne] at hspi
  exact ⟨_, rfl, rfl, rfl, rfl, if_neg hne, hrst, hplanes, hphase, rfl, rfl, hrequests, hbusy, hspi, rfl⟩

/-- Settles O39: the data window is the one that fails. -/
theorem frameWriteFailureFaults : Obligations.FrameWriteFailureFaults := by
  unfold Obligations.FrameWriteFailureFaults
  intro s n hs hopcode hdata
  rw [exec_wDtm hs, transmit,
    sendCommand_of_payload_error Config.OP_DTM (frameBytes_ne_nil s.planes) hopcode hdata, afterSend]
  exact ⟨_, rfl, payloadFailure_faultedFrom hs Config.OP_DTM (frameBytes s.planes) n⟩

/-- Settles O47: the step after the admission is the frame command, which finds planes, lines and ports as they were. -/
theorem updateFramesRuns : Obligations.UpdateFramesRuns := by
  unfold Obligations.UpdateFramesRuns
  intro s hidle hready hopcode hdata
  have hdrop : nextSpi (dropSpi (goToFrame .update (accept 4 s))) = .ok := by
    rw [← hdata]
    exact nextSpi_congr (by simp) (by simp only [dropSpi_eq]; rfl)
  obtain ⟨u, hexec, htrace, hwire, hcs, hdc, hrst, hplanes, hphase, hres, hseq, hrequests, hbusy, hspi, hreply⟩ :=
    frameCommandCompletes (goToFrame .update (accept 4 s)) rfl hopcode hdrop
  have hstep : step (goToFrame .update (accept 4 s)) = .next u := (step_of_frame (site := .update) rfl).trans hexec
  exact ⟨_, u, admitWhen_of_admitted hidle (decide_eq_true hready), hstep, htrace, hwire, hphase.trans hready, hres,
    hseq, hcs, hdc, hrst, hplanes, hrequests, hbusy, hspi, hreply⟩

end Sys2Proof.Machine
end

