-- ==== Sys2Proof/Proofs/DisplayRefresh.lean ====
section
/-! PROOF. DISPLAY_FRAME (rules R200 to R203): its one command frame and the busy-wait after it, and the failure of its
write. -/

namespace Sys2Proof.Machine

/-! ## The admission -/

/-- The state in which the frame of DISPLAY_FRAME runs (rules R92, R200). -/
def displayAdmitted (s : State) : State := goToFrame .display (accept 5 s)

theorem exec_displayFrame {s : State} (hidle : s.seq = .idle) (hready : s.phase = .ready) :
    exec .displayFrame s = .next (displayAdmitted s) :=
  admitWhen_of_admitted hidle (decide_eq_true hready)

/-! ## A refresh whose write succeeds (rules R200, R201) -/

theorem refresh_arrives {s : State} {r : List SpiAnswer} (hs : s.seq = .frame .display) (hq : s.spiIn = .ok :: r) :
    Arrives 1 s (goToRefreshWait (sentCommand 0x12 [] s)) (commandEvents 0x12 []) s.busyIn r :=
  frame_arrives hs hq transmit_of_writesOk fun _ => ⟨rfl, rfl, rfl, rfl, rfl, rfl⟩

/-- The block after the frame of DISPLAY_FRAME and a wait of `n` samples `low` that left the answers `q`. -/
def refreshed (n : Nat) (q : List Level) (s : State) : State :=
  afterWait .afterRefresh (waited n q (goToRefreshWait (sentCommand 0x12 [] s)))

theorem refreshed_phase (n : Nat) (q : List Level) (s : State) : (refreshed n q s).phase = s.phase := by
  obtain ⟨-, hphase, -⟩ := sentCommand_frame 0x12 [] s
  exact hphase

/-- The frame and the busy-wait joined. -/
theorem refreshed_arrives {s : State} {n : Nat} {q : List Level} {r : List SpiAnswer} (hs : s.seq = .frame .display)
    (hbusy : s.busyIn = waitAnswers n ++ q) (hspi : s.spiIn = .ok :: r) :
    Arrives (n + 2) s (refreshed n q s) (commandEvents 0x12 [] ++ waitEvents n) q r := by
  have hframe := refresh_arrives hs hspi
  have hrun := hframe.trans (wait_arrives rfl (hframe.busyIn.trans hbusy))
  rw [hframe.spiIn, show 1 + (n + 1) = n + 2 by omega] at hrun
  exact hrun

/-- Settles O48: the admission leaves planes, lines and ports as they were, and the run from it is the frame and the
busy-wait. -/
theorem displayFrameRuns : Obligations.DisplayFrameRuns := by
  unfold Obligations.DisplayFrameRuns
  intro s n q r hidle hready hbusy hspi
  have hrun := refreshed_arrives (s := displayAdmitted s) rfl hbusy hspi
  have htrace : (refreshed n q (displayAdmitted s)).trace = s.trace ++ commandEvents 0x12 [] ++ waitEvents n :=
    hrun.trace.trans (List.append_assoc ..).symm
  exact ⟨_, _, exec_displayFrame hidle hready, hrun.run, htrace, rfl, (refreshed_phase ..).trans hready, rfl, rfl, rfl,
    rfl, hrun.rst, hrun.planes, hrun.requests, hrun.busyIn, hrun.spiIn, rfl⟩

/-! ## A refresh whose write fails (rules R203, R212) -/

/-- TransferError at the opcode's write leaves the one failed window behind (rules R212, R213). -/
theorem opcodeFailure_faultedFrom {site : Site} {s : State} (hs : s.seq = .frame site) (op : Byte) (n : Nat) :
    FaultedFrom site (failedWindowEvents .low [op]) (([op].take n).map (fun b => (.low, b))) .low s
      (transferError (atFailedWindow .low [op] n s)) := by
  have hframe := atFailedWindow_frame .low [op] n s
  obtain ⟨hseq, hphase⟩ := transferError_endedAt hs hframe
  obtain ⟨hplanes, -, hrst, -, -, hrequests, hbusy, -⟩ := hframe
  exact ⟨rfl, rfl, rfl, rfl, hrst, hplanes, rfl, hphase, hseq, hrequests, hbusy, rfl⟩

theorem transmit_of_opcode_error {op : Byte} {payload : List Byte} {after : State → State} {s : State} {n : Nat}
    (h : nextSpi s = .error n) : transmit op payload after s = transferError (atFailedWindow .low [op] n s) := by
  rw [transmit, sendCommand_of_opcode_error op payload h, afterSend]

/-- Settles O49: the step after the admission is the frame, which ends the operation at its only write. -/
theorem displayFrameFails : Obligations.DisplayFrameFails := by
  unfold Obligations.DisplayFrameFails
  intro s n hidle hready herror
  have hstep : step (displayAdmitted s) = .next (transferError (atFailedWindow .low [0x12] n (displayAdmitted s))) :=
    (step_of_frame_body (site := .display) rfl).trans (congrArg _ (transmit_of_opcode_error herror))
  obtain ⟨htrace, hwire, hcs, hdc, hrst, hplanes, hres, hphase, hseq, hrequests, hbusy, -⟩ :=
    opcodeFailure_faultedFrom (s := displayAdmitted s) (site := .display) rfl 0x12 n
  exact ⟨_, _, exec_displayFrame hidle hready, hstep, htrace, hres, hphase.trans hready, hseq, hcs, hdc, hrst, hplanes,
    hrequests, hbusy, hwire⟩

end Sys2Proof.Machine
end

