-- ==== Sys2Proof/Proofs/Exceptions.lean ====
section
/-! PROOF. The exception (rules R202, R211 to R215): TransferError at the opcode write of any command frame, and the
busy-wait that raises none while BUSY samples low. -/

namespace Sys2Proof.Machine

/-! ## The opcode write (rules R211 to R213) -/

/-- A transmission whose first write fails never looks at its payload or at what would have followed. -/
theorem transmit_faultedFrom {site : Site} {s : State} {n : Nat} (hs : s.seq = .frame site)
    (herror : nextSpi s = .error n) (op : Byte) (payload : List Byte) (after : State → State) :
    FaultedFrom site (failedWindowEvents .low [op]) (([op].take n).map (fun b => (.low, b))) .low s
      (transmit op payload after s) := by
  rw [transmit_of_opcode_error herror]
  exact opcodeFailure_faultedFrom hs op n

/-- Every frame is a transmission of its script's opcode; a table entry loads its loop position before it. -/
theorem frameBody_faultedFrom {site : Site} {s : State} {n : Nat} (hs : s.seq = .frame site)
    (herror : nextSpi s = .error n) :
    FaultedFrom site (failedWindowEvents .low [scriptOpcode site])
      (([scriptOpcode site].take n).map (fun b => (.low, b))) .low s (frameBody site s) := by
  cases site with
  | init m =>
    rcases initSite_cases m with rfl | ⟨k, hk⟩ | rfl
    · exact transmit_faultedFrom hs herror ..
    · have hop : scriptOpcode (configSite k) = Config.CFG_OPS[k] := (initOpcodes_config k).symm
      rw [hk] at hs ⊢
      rw [frameBody_configSite, configEntry_eq, hop]
      exact transmit_faultedFrom (s := loadEntry k s) hs herror ..
    · exact transmit_faultedFrom hs herror ..
  | update =>
    rw [frameBody, frameUpdate_eq_transmit]
    exact transmit_faultedFrom hs herror ..
  | display => exact transmit_faultedFrom hs herror ..

/-- Settles O37: at its position a wire command is the body of its frame. -/
theorem opcodeWriteFailureFaults : Obligations.OpcodeWriteFailureFaults := by
  unfold Obligations.OpcodeWriteFailureFaults
  intro site s n hs herror
  exact ⟨_, (exec_siteInstr site s).trans (atSite_of_at hs), frameBody_faultedFrom hs herror⟩

/-! ## The stuck BUSY line (rules R202, R215) -/

/-- The block after `n` turns of a busy-wait that sampled `low`, with the answers `q` left and `c` free values used. -/
def afterLowTurns (n : Nat) (q : List Level) (c : Nat) (s : State) : State :=
  { s with trace := s.trace ++ lowTurns n, busyIn := q, freeCount := c }

/-- A turn that samples `low`, be the answer queued or free. -/
theorem step_of_nextBusy_low {w : WaitPoint} {s : State} (hs : s.seq = .wait w) (hlow : nextBusy s = .low) :
    ∃ q c, step s = .next (afterLowTurns 1 q c s) := by
  rw [step_of_wait hs, pollBusy_of_low hlow, dropBusy_eq]
  exact ⟨_, _, rfl⟩

theorem lowTurns_add (m n : Nat) : lowTurns (m + n) = lowTurns m ++ lowTurns n := by
  simp only [lowTurns, List.replicate_add, List.flatten_append]

theorem afterLowTurns_afterLowTurns (m n : Nat) (q r : List Level) (c d : Nat) (s : State) :
    afterLowTurns n r d (afterLowTurns m q c s) = afterLowTurns (m + n) r d s := by
  simp only [afterLowTurns, lowTurns_add, List.append_assoc]

/-- By induction on the turns: the last one finds the block still at the wait, and its answer is `low` too. -/
theorem runFor_of_nextBusy_low {w : WaitPoint} {s : State} {n : Nat} (hs : s.seq = .wait w)
    (hlow : ∀ m u, m < n → runFor m s = .next u → nextBusy u = .low) :
    ∃ q c, runFor n s = .next (afterLowTurns n q c s) := by
  induction n with
  | zero => exact ⟨s.busyIn, s.freeCount, by simp [runFor, afterLowTurns, lowTurns]⟩
  | succ n ih =>
    obtain ⟨q, c, hrun⟩ := ih fun m u hm => hlow m u (Nat.lt_succ_of_lt hm)
    obtain ⟨r, d, hstep⟩ := step_of_nextBusy_low (s := afterLowTurns n q c s) hs (hlow n _ n.lt_succ_self hrun)
    refine ⟨r, d, ?_⟩
    rw [runFor_add n 1 hrun, runFor_one, hstep, afterLowTurns_afterLowTurns]

/-- Settles O41: turns that sample `low` change nothing but the trace and the answers left. -/
theorem stuckBusyLineHangs : Obligations.StuckBusyLineHangs := by
  unfold Obligations.StuckBusyLineHangs
  intro w s n hs hlow
  obtain ⟨q, c, hrun⟩ := runFor_of_nextBusy_low hs hlow
  exact ⟨_, hrun, hs, rfl, rfl, rfl, rfl, rfl, rfl, rfl, rfl, rfl, rfl, rfl⟩

end Sys2Proof.Machine
end
